-- ==== Sys2Proof/Word.lean ====
section
/-! DEFINITION. The word types of the XPROZ model (spec 00_scope.md R5, R7). -/

namespace Sys2Proof

/-- A word: the 16 bits of the data bus, of every operand, every result, every instruction word and
every memory address (R5, R7). It is also the smallest addressable unit: there is no byte access (R54). -/
abbrev Word := BitVec 16

/-- An I/O address: only `A14-A0` leave the chip, so bit 15 of an effective address is not output (R38, R51). -/
abbrev IoAddr := BitVec 15

/-- One bit per interrupt request line: bit `n - 1` belongs to line `n`, for `n = 1..5` (R252). -/
abbrev Lines := BitVec 5

end Sys2Proof
end

