-- ==== Sys2Proof/Syntax.lean ====
section
/-! DEFINITION. The one instruction format and the instruction set of XPROZ (spec 30_encoding.md R80 to R102). -/

namespace Sys2Proof

/-- The sixteen conditions, in the order of their codes `$0` to `$F` (R88). -/
inductive Cond where
  | me | pe | hi | ls | cc | cs | ne | eq | vc | vs | pl | mi | ge | lt | gt | le
  deriving DecidableEq, Repr

/-- The field `BED` with what it makes of bits 15:12 (R87): `tr`, always executed, or a condition. -/
inductive Guard where
  | tr
  | cond (c : Cond)
  deriving DecidableEq, Repr

/-- The mode of a source operand (x: R83, y: R84): `-`, `#wert`, `wert`, `(wert)`. -/
inductive Mode where
  | absent | immediate | direct | indirect
  deriving DecidableEq, Repr

/-- The mode of the result (R85): `-`, `=`, `wert`, `(wert)`. -/
inductive ResultMode where
  | none | same | direct | indirect
  deriving DecidableEq, Repr

/-- The x operand: its mode and its modifiers `&` (`xsr`) and `@` (`xio`) (R89, R98). -/
structure XOperand where
  sr : Bool
  io : Bool
  mode : Mode
  deriving DecidableEq, Repr

/-- The result z: its mode and its modifiers `&` (`zsr`) and `@` (`zio`) (R89, R98). -/
structure Result where
  sr : Bool
  io : Bool
  mode : ResultMode
  deriving DecidableEq, Repr

/-- Everything the instruction word says besides the operation: `cond flags x,y,z` (R80, R81, R96). -/
structure Format where
  /-- `BED` and `CC`. -/
  guard : Guard
  /-- `SF`: `true` is `sf`, `false` is `hf` (R86). -/
  setFlags : Bool
  x : XOperand
  y : Mode
  z : Result
  deriving DecidableEq, Repr

/-- The instructions: the sixteen operations of R82, each in the one format. `lsl` is the second
spelling of `asl` (R101, R177): the table has a row for each, with one encoding. An `Instr` is what the
instruction word says; the operand words stay in memory, where the hardware reads them while it
executes the instruction (20_memory.md R65). -/
inductive Instr where
  | add (f : Format)
  | nor (f : Format)
  | ror (f : Format)
  | rol (f : Format)
  | sub (f : Format)
  | and (f : Format)
  | rorc (f : Format)
  | rolc (f : Format)
  | addc (f : Format)
  | eor (f : Format)
  | asr (f : Format)
  | asl (f : Format)
  | lsl (f : Format)
  | subc (f : Format)
  | or (f : Format)
  | lsr (f : Format)
  | bswp (f : Format)
  deriving DecidableEq, Repr

/-- An instruction with its operand words, in the order x, y, z (R90): what a program holds. -/
structure InstrWords where
  instr : Instr
  operands : List Word
  deriving DecidableEq, Repr

/-- The fields of the instruction word besides the operation. -/
def Instr.format : Instr → Format
  | .add f | .nor f | .ror f | .rol f | .sub f | .and f | .rorc f | .rolc f | .addc f
  | .eor f | .asr f | .asl f | .lsl f | .subc f | .or f | .lsr f | .bswp f => f

/-- The spelling that stands for an instruction's words: `asl` for `lsl`, every other instruction itself (R101). -/
def Instr.canonical : Instr → Instr
  | .add f => .add f
  | .nor f => .nor f
  | .ror f => .ror f
  | .rol f => .rol f
  | .sub f => .sub f
  | .and f => .and f
  | .rorc f => .rorc f
  | .rolc f => .rolc f
  | .addc f => .addc f
  | .eor f => .eor f
  | .asr f => .asr f
  | .asl f => .asl f
  | .lsl f => .asl f
  | .subc f => .subc f
  | .or f => .or f
  | .lsr f => .lsr f
  | .bswp f => .bswp f

end Sys2Proof
end

