-- ==== Sys2Proof/WellFormed.lean ====
section
/-! DEFINITION. Which instructions have an encoding. The only restrictions are that the modifiers `&` and `@`
exist in unconditional instructions alone (30_encoding.md R99, 93_implementation_defined.md U6) and that an
instruction has the operand words its modes ask for (R90). -/

namespace Sys2Proof

/-- Why a written instruction has no encoding. -/
inductive SyntaxError where
  /-- `&` on the x operand of a conditional instruction (R99). -/
  | srOnConditionalX
  /-- `@` on the x operand of a conditional instruction (R99). -/
  | ioOnConditionalX
  /-- `&` on the result of a conditional instruction (R99). -/
  | srOnConditionalZ
  /-- `@` on the result of a conditional instruction (R99). -/
  | ioOnConditionalZ
  /-- Not as many operand words as the modes ask for (R90). -/
  | operandCount
  deriving DecidableEq, Repr

/-- The number of operand words a source operand has: one, unless it is absent (R83, R84). -/
def Mode.words : Mode → Nat
  | .absent => 0
  | .immediate | .direct | .indirect => 1

/-- The number of operand words the result has: one for a direct or indirect address (R85). -/
def ResultMode.words : ResultMode → Nat
  | .none | .same => 0
  | .direct | .indirect => 1

/-- The number of operand words after the instruction word (R90). -/
def Format.operandCount (f : Format) : Nat :=
  f.x.mode.words + f.y.words + f.z.mode.words

/-- The length of an instruction in words (R90). -/
def Format.length (f : Format) : Nat := 1 + f.operandCount

/-- What is wrong with a format; empty for one that has an encoding. -/
def Format.errors (f : Format) : List SyntaxError :=
  match f.guard with
  | .tr => []
  | .cond _ =>
    (if f.x.sr then [.srOnConditionalX] else []) ++ (if f.x.io then [.ioOnConditionalX] else []) ++
    (if f.z.sr then [.srOnConditionalZ] else []) ++ (if f.z.io then [.ioOnConditionalZ] else [])

/-- The format has an encoding. -/
def Format.wellFormed (f : Format) : Bool := f.errors.isEmpty

/-- The instruction has an encoding. -/
def Instr.wellFormed (i : Instr) : Bool := i.format.wellFormed

/-- What is wrong with an instruction and its operand words. -/
def InstrWords.errors (p : InstrWords) : List SyntaxError :=
  p.instr.format.errors ++
    (if p.operands.length = p.instr.format.operandCount then [] else [.operandCount])

/-- The instruction with its operand words can stand in a program. -/
def InstrWords.wellFormed (p : InstrWords) : Bool := p.errors.isEmpty

end Sys2Proof
end

