-- ==== Sys2Proof/Decode.lean ====
section
/-! DEFINITION. The decoder of the instruction word and, after it, the encoder (spec 30_encoding.md R80 to R102).
Every one of the 65536 instruction words decodes (R93); what can be refused, by name, is a list of words that
ends too early. -/

namespace Sys2Proof

/-! ### Decoding -/

/-- The condition with code `b15 b14 b13 b12` (R88). -/
def decodeCond (b15 b14 b13 b12 : Bool) : Cond :=
  match b15, b14, b13, b12 with
  | false, false, false, false => .me
  | false, false, false, true => .pe
  | false, false, true, false => .hi
  | false, false, true, true => .ls
  | false, true, false, false => .cc
  | false, true, false, true => .cs
  | false, true, true, false => .ne
  | false, true, true, true => .eq
  | true, false, false, false => .vc
  | true, false, false, true => .vs
  | true, false, true, false => .pl
  | true, false, true, true => .mi
  | true, true, false, false => .ge
  | true, true, false, true => .lt
  | true, true, true, false => .gt
  | true, true, true, true => .le

/-- A source operand's mode from its two bits (R83, R84). -/
def decodeMode (hi lo : Bool) : Mode :=
  match hi, lo with
  | false, false => .absent
  | false, true => .immediate
  | true, false => .direct
  | true, true => .indirect

/-- The result's mode from its two bits (R85). -/
def decodeResultMode (hi lo : Bool) : ResultMode :=
  match hi, lo with
  | false, false => .none
  | false, true => .same
  | true, false => .direct
  | true, true => .indirect

/-- Bits 15:4 of the instruction word (R81, R111). With `BED = 0` bits 15:12 are the condition and the four
modifiers are off (R89). -/
def decodeFormat (w : Word) : Format :=
  { guard := if w[11] then .tr else .cond (decodeCond w[15] w[14] w[13] w[12])
    setFlags := w[10]
    x := { sr := w[11] && w[15], io := w[11] && w[14], mode := decodeMode w[5] w[4] }
    y := decodeMode w[7] w[6]
    z := { sr := w[11] && w[13], io := w[11] && w[12], mode := decodeResultMode w[9] w[8] } }

/-- The instruction an instruction word stands for: the operation from bits 3:0, grouped by bits 1:0 and
selected by bits 3:2 as the source's table has them (R82). -/
def decodeWord (w : Word) : Instr :=
  match w[1], w[0], w[3], w[2] with
  | false, false, false, false => .add (decodeFormat w)
  | false, false, false, true => .sub (decodeFormat w)
  | false, false, true, false => .addc (decodeFormat w)
  | false, false, true, true => .subc (decodeFormat w)
  | false, true, false, false => .nor (decodeFormat w)
  | false, true, false, true => .and (decodeFormat w)
  | false, true, true, false => .eor (decodeFormat w)
  | false, true, true, true => .or (decodeFormat w)
  | true, false, false, false => .ror (decodeFormat w)
  | true, false, false, true => .rorc (decodeFormat w)
  | true, false, true, false => .asr (decodeFormat w)
  | true, false, true, true => .lsr (decodeFormat w)
  | true, true, false, false => .rol (decodeFormat w)
  | true, true, false, true => .rolc (decodeFormat w)
  | true, true, true, false => .asl (decodeFormat w)
  | true, true, true, true => .bswp (decodeFormat w)

/-- Why a list of words is no instruction: it ends too early. No instruction word is ever refused (R93). -/
inductive DecodeError where
  /-- There is no instruction word. -/
  | noInstructionWord
  /-- An operand word that the instruction word asks for is missing (R90). -/
  | operandWordMissing
  deriving DecidableEq, Repr

/-- An instruction read from the front of a list of words, and the words after it. -/
structure Decoded where
  code : InstrWords
  rest : List Word
  deriving DecidableEq, Repr

/-- Read one instruction from the front of a list of words; its length follows from the instruction word
alone (R90). -/
def decode : List Word → Except DecodeError Decoded
  | [] => .error .noInstructionWord
  | w :: ws =>
    if ws.length < (decodeFormat w).operandCount then .error .operandWordMissing
    else .ok { code := { instr := decodeWord w, operands := ws.take (decodeFormat w).operandCount }
               rest := ws.drop (decodeFormat w).operandCount }

/-- The words of an instruction whose bits are `w`, bit 0 the least significant bit of the first word, of
which the lowest `nbits` are given and the rest are 0: as many words as the longest instruction has. -/
def tableWords (nbits w : Nat) : List Word :=
  let v : BitVec 64 := BitVec.ofNat 64 (w % 2 ^ nbits)
  [v.extractLsb' 0 16, v.extractLsb' 16 16, v.extractLsb' 32 16, v.extractLsb' 48 16]

/-- The instruction the decoder reads from an opcode-table word. -/
def decodeTableWord (nbits w : Nat) : Option Instr :=
  match decode (tableWords nbits w) with
  | .ok d => some d.code.instr
  | .error _ => none

/-! ### Encoding -/

/-- A bit field with its lowest bit at bit `low` of a word. -/
def placeField {n : Nat} (v : BitVec n) (low : Nat) : Word := v.setWidth 16 <<< low

/-- The code of a condition (R88). -/
def Cond.code : Cond → BitVec 4
  | .me => 0x0 | .pe => 0x1 | .hi => 0x2 | .ls => 0x3
  | .cc => 0x4 | .cs => 0x5 | .ne => 0x6 | .eq => 0x7
  | .vc => 0x8 | .vs => 0x9 | .pl => 0xA | .mi => 0xB
  | .ge => 0xC | .lt => 0xD | .gt => 0xE | .le => 0xF

/-- The two bits of a source operand's mode (R83, R84). -/
def Mode.code : Mode → BitVec 2
  | .absent => 0 | .immediate => 1 | .direct => 2 | .indirect => 3

/-- The two bits of the result's mode (R85). -/
def ResultMode.code : ResultMode → BitVec 2
  | .none => 0 | .same => 1 | .direct => 2 | .indirect => 3

/-- The four modifiers as bits: `xsr xio zsr zio` (R89). -/
def Format.modifierBits (f : Format) : BitVec 4 :=
  (if f.x.sr then 8 else 0) ||| (if f.x.io then 4 else 0) ||| (if f.z.sr then 2 else 0) ||| (if f.z.io then 1 else 0)

/-- Bits 15:12 (R102): the condition's code, or the four modifiers of an unconditional instruction. -/
def Format.topBits (f : Format) : BitVec 4 :=
  match f.guard with
  | .cond c => c.code
  | .tr => f.modifierBits

/-- Bit 11, `BED` (R87). -/
def Guard.bit : Guard → Bool
  | .tr => true
  | .cond _ => false

/-- Bits 3:0, `ALU3 ALU2 ALU1 ALU0` (R82). -/
def Instr.opcode : Instr → BitVec 4
  | .add _ => 0x0
  | .nor _ => 0x1
  | .ror _ => 0x2
  | .rol _ => 0x3
  | .sub _ => 0x4
  | .and _ => 0x5
  | .rorc _ => 0x6
  | .rolc _ => 0x7
  | .addc _ => 0x8
  | .eor _ => 0x9
  | .asr _ => 0xA
  | .asl _ => 0xB
  | .lsl _ => 0xB
  | .subc _ => 0xC
  | .or _ => 0xD
  | .lsr _ => 0xE
  | .bswp _ => 0xF

/-- The instruction word of a format and an operation (R81). -/
def encodeFields (f : Format) (op : BitVec 4) : Word :=
  placeField f.topBits 12 ||| placeField (BitVec.ofBool f.guard.bit) 11 ||| placeField (BitVec.ofBool f.setFlags) 10 |||
    placeField f.z.mode.code 8 ||| placeField f.y.code 6 ||| placeField f.x.mode.code 4 ||| placeField op 0

/-- The instruction word of an instruction (R102). -/
def encode (i : Instr) : Word := encodeFields i.format i.opcode

/-- The words of an instruction with its operand words (R80, R90). -/
def encodeWords (p : InstrWords) : List Word := encode p.instr :: p.operands

end Sys2Proof
end

