-- ==== Sys2Proof/Config.lean ====
section
/-! DEFINITION. What the platform fixes and what the spec leaves open (spec 00_scope.md R6): the I/O
history, the parameter `V_LOGIC_MODE`, and the free values, which have no body, so that nothing can be
proved of the value they take. -/

namespace Sys2Proof

/-- One access to the I/O space, with the 15-bit address that reached the pins and the word that was
read from or handed to the platform there (R51). -/
inductive IoEvent where
  /-- `IORead(address)` was answered with `value`. -/
  | read (address : IoAddr) (value : Word)
  /-- `IOWrite(address, value)`. -/
  | write (address : IoAddr) (value : Word)
  deriving DecidableEq, Repr

/-- The parameter `V_LOGIC_MODE` (R6, 92_eei_decisions.md D4): what flag V becomes after one of the twelve
operations whose description says "V = undefiniert". -/
inductive VLogicMode where
  /-- The default: an arbitrary bit, chosen afresh each time (93_implementation_defined.md U1). -/
  | any
  /-- The function of the ALU block's `VF` column (48_sequencer_and_datapath.md R225). -/
  | aluTable
  deriving DecidableEq, Repr

namespace Config

/-- FREE VALUE (log entry 1): flag V after the `k`-th instruction since reset, where the instruction's
description calls it "undefiniert" (R160, R170, U1). -/
opaque freeV : Nat → Bool

/-- FREE VALUE (log entry 2): `IO_READ(addr15, history)`, the platform's answer to an I/O read, given every
earlier I/O access (R6, R51, D14). -/
opaque ioRead : List IoEvent → IoAddr → Word

/-- FREE VALUE (log entry 3): `IRQ_SEEN(n, k)` for the five lines together, the request lines that are seen
active in phase 2 of the `k`-th instruction since reset (R6, R253, D25). -/
opaque irqSeen : Nat → Lines

end Config

end Sys2Proof
end

