-- ==== Sys2Proof/Machine/State.lean ====
section
/-! DEFINITION. The state of the machine between two instructions (spec 10_state.md R20 to R41), the reasons a
step could stop, and the state after reset (R39). -/

namespace Sys2Proof.Machine

/-- Memory: the words that differ from what an unlisted address reads as, by word address, addresses strictly
rising (R37). The smallest addressable unit of this machine is the 16-bit word, and the spec rules out a
byte-addressed view (20_memory.md R54), so an entry is a word and not a byte (log entry 7). -/
abbrev Memory := List (Nat × Word)

/-- The phase in which the sequencer begins the next instruction. Between two instructions it is in P0 or in P1
and in no other phase (48_sequencer_and_datapath.md R213, log entry 9); the eighteen phases are in
`Machine/Sequencer.lean`. -/
inductive StartPhase where
  /-- The PC cell is loaded into Y first (R114). -/
  | p0
  /-- Y already holds the address of the instruction: after reset, and after a conditional instruction that
  was not executed and would have stored (R282, R293). -/
  | p1
  deriving DecidableEq, Repr

/-- The machine between two instructions. -/
structure State where
  /-- The status register, bits 13:8 `i5..i1 ie` and 3:0 `V N Z C`; the other six do not exist and are 0 (R21, R22). -/
  sr : Word
  /-- XREG (R32). -/
  x : Word
  /-- YREG (R33). -/
  y : Word
  /-- BREG, the instruction register (R34). -/
  ir : Word
  /-- The sequencer's phase (R35). -/
  phase : StartPhase
  /-- The interrupt latch `L[1..5]`; bit `n - 1` is `L[n]` (R36). -/
  latch : Lines
  /-- RAM `$0000-$7fff`, with the six PC cells in words 0 to 5, and ROM `$8000-$ffff` (R37, R28). -/
  mem : Memory
  /-- Every access to the I/O space so far, oldest first: the output trace and the history on which the
  platform's answers depend (R38, R51, D14). -/
  ioTrace : List IoEvent
  /-- MODEL'S OWN (log entry 2): answers the platform has ready for the next I/O reads, the next one first;
  when there is none the answer is the free value `Config.ioRead`. -/
  ioIn : List Word
  /-- MODEL'S OWN (log entry 3): the request lines that will be seen active in phase 2 of the next instructions,
  the next one first; where nothing is listed they are the free value `Config.irqSeen`. -/
  irqIn : List Lines
  /-- MODEL'S OWN (log entry 3): the number `k` of instructions completed since reset, the index of
  `IRQ_SEEN(n, k)` and of the free values of flag V. -/
  index : Nat
  /-- The parameter `V_LOGIC_MODE` of the platform (R6, D4); no instruction changes it. -/
  vMode : VLogicMode
  deriving DecidableEq, Repr

/-- The reasons a step could end in a fault. There are none: "No instruction, operand, address or value causes a
trap, fault or abort" (60_exceptions.md R250), so the type has no constructor and no step can fault. Safe. -/
inductive Fault where
  deriving DecidableEq, Repr

/-- The reasons a step could be refused. -/
inductive Refusal where
  /-- Raised by an arm of `exec` whose instruction has no meaning yet, with the instruction's mnemonic. No arm
  raises it now: every instruction has its meaning. Safe. -/
  | notModelled (mnemonic : String)
  deriving DecidableEq, Repr

/-- The machine right after reset, for any contents of memory (`RAM_INIT` and `ROM_IMAGE` in one) and any value
of `V_LOGIC_MODE` (R39, R281, R6). -/
def State.resetWith (mem : Memory) (vMode : VLogicMode) : State :=
  { sr := 0
    x := 0
    y := 0x8000
    ir := 0
    phase := .p1
    latch := 0
    mem := mem
    ioTrace := []
    ioIn := []
    irqIn := []
    index := 0
    vMode := vMode }

/-- The machine right after reset (R39). The spec leaves the contents of RAM and of ROM to the platform: nothing
is listed, so that every word reads as 0 (log entry 5, DESIGN CHOICE); `V_LOGIC_MODE` has its default (R6). -/
def State.reset : State := State.resetWith [] .any

end Sys2Proof.Machine
end

