-- ==== Sys2Proof/Machine/Flags.lean ====
section
/-! DEFINITION. The status register's fields (spec 10_state.md R21 to R27), the sixteen conditions (R112, R113), the
interrupt level (R25), and the flag computations of the ALU (41_arithmetic.md R150, 42_logic.md R160,
43_shift_rotate_swap.md R170). -/

namespace Sys2Proof.Machine

/-! ### The fields of the status register (R21) -/

/-- Flag C, bit 0. -/
def flagC (sr : Word) : Bool := sr[0]
/-- Flag Z, bit 1. -/
def flagZ (sr : Word) : Bool := sr[1]
/-- Flag N, bit 2. -/
def flagN (sr : Word) : Bool := sr[2]
/-- Flag V, bit 3. -/
def flagV (sr : Word) : Bool := sr[3]
/-- The interrupt enable `ie`, bit 8 (R24). -/
def flagIe (sr : Word) : Bool := sr[8]

/-- The ten bits of `sr` that exist, `$3F0F` (R21, R117). -/
def srImplemented : Word := 0x3F0F

/-- `sr` as it reads: zeros in the six places that do not exist (R22, R117). -/
def srRead (sr : Word) : Word := sr &&& srImplemented

/-- `sr` with its four flags replaced and nothing else changed (R118). -/
def withFlags (sr : Word) (v n z c : Bool) : Word :=
  (sr &&& 0xFFF0) ||| placeField (BitVec.ofBool v) 3 ||| placeField (BitVec.ofBool n) 2 |||
    placeField (BitVec.ofBool z) 1 ||| placeField (BitVec.ofBool c) 0

/-- `sr` with its four flags loaded from bits 3:0 of a result (R118, the `&` result modifier with `sf`). -/
def withFlagsFrom (sr z : Word) : Word := (sr &&& 0xFFF0) ||| (z &&& 0x000F)

/-- `sr` with `i5..i1` and `ie` loaded from bits 13:8 of a result (R121). -/
def withHighFrom (sr z : Word) : Word := (sr &&& 0xC0FF) ||| (z &&& 0x3F00)

/-- `sr` with `i_n = sr[8 + n]` cleared for every line `n` in `l` (R256). -/
def clearLevels (l : Lines) (sr : Word) : Word := sr &&& ~~~(placeField l 9)

/-- The interrupt level a status word selects: the highest `n` with `i_n = 0`, and 0, user mode, if there is none
(R25). `ie` plays no part. -/
def level (sr : Word) : Nat :=
  if sr[13] = false then 5
  else if sr[12] = false then 4
  else if sr[11] = false then 3
  else if sr[10] = false then 2
  else if sr[9] = false then 1
  else 0

/-- The address of the program counter cell of the level a status word selects (R28). -/
def pcCell (sr : Word) : Word := BitVec.ofNat 16 (level sr)

/-! ### Conditions -/

/-- The condition function `cond(cc, f)`, the "Funktion" column of the source's table (R88, R113). -/
def condHolds (code : Cond) (sr : Word) : Bool :=
  let c := flagC sr
  let z := flagZ sr
  let n := flagN sr
  let v := flagV sr
  match code with
  | .me => z || n
  | .pe => !z && !n
  | .hi => !c && !z
  | .ls => c || z
  | .cc => !c
  | .cs => c
  | .ne => !z
  | .eq => z
  | .vc => !v
  | .vs => v
  | .pl => !n
  | .mi => n
  | .ge => (n && v) || (!n && !v)
  | .lt => (n && !v) || (!n && v)
  | .gt => (n && v && !z) || (!n && !v && !z)
  | .le => z || (n && !v) || (!n && v)

/-- The execution predicate `exec`, on the flags as the previous instruction left them (R112). -/
def executes (g : Guard) (sr : Word) : Bool :=
  match g with
  | .tr => true
  | .cond c => condHolds c sr

/-! ### The ALU's carry and overflow -/

/-- What the ALU's overflow output stands for. -/
inductive Overflow where
  /-- The instruction's description defines V. -/
  | defined (v : Bool)
  /-- "V = undefiniert"; the ALU block's table has the value given (R160, R170, R225). -/
  | undefined (table : Bool)
  deriving DecidableEq, Repr

/-- What the ALU computes: the result, the carry and the overflow (R118). -/
structure AluOut where
  z : Word
  c : Bool
  v : Overflow
  deriving DecidableEq, Repr

/-- The exact value lies outside -32768..32767 (R150). -/
def outsideSigned (n : Int) : Bool := decide (n < -32768) || decide (32767 < n)

/-- The exact sum `S` of R150. -/
def exactSum (x y : Word) (c : Bool) : Nat := x.toNat + y.toNat + c.toNat

/-- The exact difference `D` of R150. -/
def exactDifference (x y : Word) (c : Bool) : Int := (y.toNat : Int) - (x.toNat : Int) - (c.toNat : Int)

/-- `V(X+Y+c)`: signed overflow of an addition (R150; log entry 11). -/
def overflowAdd (x y : Word) (c : Bool) : Bool := outsideSigned (x.toInt + y.toInt + (c.toNat : Int))

/-- `V(Y-X-c)`: signed overflow of a subtraction (R150; log entry 11). -/
def overflowSub (x y : Word) (c : Bool) : Bool := outsideSigned (y.toInt - x.toInt - (c.toNat : Int))

/-- An addition with carry in `c` (R150). -/
def addOut (x y : Word) (c : Bool) : AluOut :=
  { z := BitVec.ofNat 16 (exactSum x y c)
    c := decide (2 ^ 16 ≤ exactSum x y c)
    v := .defined (overflowAdd x y c) }

/-- A subtraction `y - x` with borrow in `c`; C is the borrow out (R150; log entry 10). -/
def subOut (x y : Word) (c : Bool) : AluOut :=
  { z := BitVec.ofInt 16 (exactDifference x y c)
    c := decide (exactDifference x y c < 0)
    v := .defined (overflowSub x y c) }

/-- The `VF` column of the ALU block's table, chosen by `ALU3 ALU2` alone (R160, R225). -/
def tableV (alu3 alu2 : Bool) (x y : Word) (cin : Bool) : Bool :=
  match alu3, alu2 with
  | false, false => overflowAdd x y false
  | false, true => overflowSub x y false
  | true, false => overflowAdd x y cin
  | true, true => overflowSub x y cin

/-- What an operation whose V is "undefiniert" puts out (R160, R170). -/
def undefinedVOut (z : Word) (c : Bool) (alu3 alu2 : Bool) (x y : Word) (cin : Bool) : AluOut :=
  { z := z, c := c, v := .undefined (tableV alu3 alu2 x y cin) }

/-- The bit that V becomes: the defined one, or, where V is "undefiniert", the free value of this instruction or
what the ALU block's table has, as `V_LOGIC_MODE` says (R160, D4, U1; log entry 1). -/
def resolveV (s : State) (o : Overflow) : Bool :=
  match o with
  | .defined v => v
  | .undefined table =>
    match s.vMode with
    | .any => Config.freeV s.index
    | .aluTable => table

/-- The four flags after an operation: V, N, Z, C (R118). -/
def withAluFlags (s : State) (o : AluOut) : Word :=
  withFlags s.sr (resolveV s o.v) o.z[15] (decide (o.z = 0)) o.c

end Sys2Proof.Machine
end

