-- ==== Sys2Proof/Machine/Ops.lean ====
section
/-! DEFINITION. The named operations of the machine: memory and I/O (spec 20_memory.md R50 to R67), the transfers of
the phase table (48_sequencer_and_datapath.md R210), and the interrupt mechanism (60_exceptions.md R252 to R265),
which is all that stands in this machine for taking an exception and returning from one. -/

namespace Sys2Proof.Machine

/-! ### Memory as data -/

/-- What a word of memory that is not listed reads as (log entry 5, DESIGN CHOICE; the spec leaves the contents of RAM
and ROM to the platform, R283, R6). -/
def unlisted : Word := 0

/-- The word at an address. -/
def Memory.read : Memory → Nat → Word
  | [], _ => unlisted
  | (b, w) :: m, a => if b = a then w else Memory.read m a

/-- Put a word at an address, keeping addresses in order. -/
def Memory.insert : Memory → Nat → Word → Memory
  | [], a, v => [(a, v)]
  | (b, w) :: m, a, v =>
    if a < b then (a, v) :: (b, w) :: m
    else if a = b then (a, v) :: m
    else (b, w) :: Memory.insert m a v

/-- Put a word at an address; the value an unlisted address reads as removes the entry. -/
def Memory.write (m : Memory) (a : Nat) (v : Word) : Memory :=
  if v = unlisted then m.filter (fun e => e.1 != a) else m.insert a v

/-- The canonical form from an address on: addresses strictly rising from `low`, all of them addresses of the
machine, and no entry equal to what an unlisted address reads as. -/
def Memory.wfFrom : Nat → Memory → Bool
  | _, [] => true
  | low, (a, v) :: m => decide (low ≤ a) && decide (a < 2 ^ 16) && decide (v ≠ unlisted) && Memory.wfFrom (a + 1) m

/-- The canonical form of a memory: equal memories are equal lists. -/
def Memory.wf (m : Memory) : Bool := Memory.wfFrom 0 m

/-- Put words at consecutive addresses, wrapping at the top; RAM and ROM alike. No instruction does this: it stands
for what loads a program from outside the machine. -/
def Memory.load : Memory → Word → List Word → Memory
  | m, _, [] => m
  | m, a, v :: vs => Memory.load (m.write a.toNat v) (a + 1) vs

/-! ### Memory and the I/O space, as the machine reaches them -/

/-- `MemRead(a)` (R8, R50). -/
def memRead (s : State) (a : Word) : Word := s.mem.read a.toNat

/-- The address selects RAM (`$0000-$7fff`) and not ROM (R50). -/
def isRam (a : Word) : Bool := !a[15]

/-- `MemWrite(a, v)`: a store to RAM; a write to a ROM address changes nothing (R8, R60). -/
def memWrite (s : State) (a v : Word) : State :=
  { s with mem := if isRam a then s.mem.write a.toNat v else s.mem }

/-- The I/O address that reaches the pins: bits 14:0 (R51). -/
def ioAddr (a : Word) : IoAddr := a.extractLsb' 0 15

/-- What the platform answers to an I/O read: the answer it has ready, or else the free value for this address after
everything that has happened in the I/O space (R51, D14; log entry 2). -/
def ioAnswer (s : State) (a : IoAddr) : Word :=
  match s.ioIn with
  | v :: _ => v
  | [] => Config.ioRead s.ioTrace a

/-! ### The transfers of the phase table -/

/-- The address of the current level's program counter cell (R28). -/
def pca (s : State) : Word := pcCell s.sr

/-- "PC -> y" (phases 0, 7, 13). -/
def loadPc (s : State) : State := { s with y := memRead s (pca s) }

/-- "(y) -> Befehlsreg." (phase 1). -/
def loadIr (s : State) : State := { s with ir := memRead s s.y }

/-- "y+1 -> PC" (phases 3, 8, 14): the cell is stepped past the word that Y addresses; Y is unchanged. The sum wraps
at 16 bits (R30). -/
def stepPc (s : State) : State := memWrite s (pca s) (s.y + 1)

/-- "y+1 -> PC,y" (phase 2). -/
def stepPcAndY (s : State) : State := { stepPc s with y := s.y + 1 }

/-- "(y) -> y" (phases 4, 5, 9, 10, 11, 15, 16): always a memory read (R115, R116, R120). -/
def followY (s : State) : State := { s with y := memRead s s.y }

/-- "(y) -> x" from memory (phase 6). -/
def loadX (s : State) : State := { s with x := memRead s s.y }

/-- "(y) -> x" from the I/O space (phase 6 under `xio`, R115): one `IORead`, with whatever side effect the platform
gives it (R51, R200). -/
def loadXFromIo (s : State) : State :=
  { s with
    x := ioAnswer s (ioAddr s.y)
    ioIn := s.ioIn.tail
    ioTrace := s.ioTrace ++ [.read (ioAddr s.y) (ioAnswer s (ioAddr s.y))] }

/-- "x -> (y)" to memory (phase 17). -/
def storeX (s : State) : State := memWrite s s.y s.x

/-- "x -> (y)" to the I/O space (phase 17 under `zio`, R120, R201): one `IOWrite`. -/
def storeXToIo (s : State) : State :=
  { s with ioTrace := s.ioTrace ++ [.write (ioAddr s.y) s.x] }

/-! ### Interrupts -/

/-- The request lines seen active in phase 2 of the next instruction, `IRQ_SEEN(n, k)` (R253; log entry 3). -/
def linesSeen (s : State) : Lines :=
  match s.irqIn with
  | l :: _ => l
  | [] => Config.irqSeen s.index

/-- Phase 2: with `ie = 1` every line seen active is recorded in the latch; with `ie = 0` the request is dropped
(R254, R255). -/
def sampleLines (s : State) : State :=
  { s with
    latch := if flagIe s.sr then s.latch ||| linesSeen s else s.latch
    irqIn := s.irqIn.tail }

/-- TAKING AN INTERRUPT, after an executed instruction: every recorded request clears its level bit, and the latch is
empty again (R256). Nothing is saved, `ie` and the flags stay, and the next instruction comes through the PC cell
of the level that is then the highest (R259, R265). -/
def takeInterrupts (s : State) : State :=
  { s with sr := clearLevels s.latch s.sr, latch := 0 }

/-- RETURNING FROM AN INTERRUPT, and every other software write of `i5..i1` and `ie`: bits 13:8 of the result, at the
end of an instruction with `&` on a stored result (R121, R261). Nothing is restored. -/
def writeSrHigh (s : State) : State := { s with sr := withHighFrom s.sr s.x }

/-- The reset pin pulled and released between two instructions: registers and latch as after reset, memory as it
stands (R280, R283, D16; log entry 6). The environment's lists are the environment's own and go on. -/
def resetPin (s : State) : State :=
  { s with sr := 0, x := 0, y := 0x8000, ir := 0, phase := .p1, latch := 0 }

end Sys2Proof.Machine
end

