-- ==== Sys2Proof/Machine/Operands.lean ====
section
/-! DEFINITION. The execution sequence common to every instruction (spec 40_execution_sequence.md R110 to R125): fetch,
operands, ALU inputs, flags, destination and store, and the end of the instruction. Nothing in it depends on
which operation the ALU performs. -/

namespace Sys2Proof.Machine

/-! ### Fetch (R114) -/

/-- Phases 0 and 1: the address of the instruction into Y, unless it is there already, and the instruction word into
the instruction register (R114, R282, R293). -/
def fetch (s : State) : State :=
  match s.phase with
  | .p0 => loadIr (loadPc s)
  | .p1 => loadIr s

/-- The address from which the next instruction will be fetched. -/
def fetchAddress (s : State) : Word :=
  match s.phase with
  | .p0 => memRead s (pca s)
  | .p1 => s.y

/-! ### Modifiers in effect (R89, R111) -/

/-- The instruction is unconditional, so that its modifiers exist. -/
def Guard.always : Guard → Bool
  | .tr => true
  | .cond _ => false

/-- `xsr_eff`. -/
def xsrEff (f : Format) : Bool := Guard.always f.guard && f.x.sr
/-- `xio_eff`. -/
def xioEff (f : Format) : Bool := Guard.always f.guard && f.x.io
/-- `zsr_eff`. -/
def zsrEff (f : Format) : Bool := Guard.always f.guard && f.z.sr
/-- `zio_eff`. -/
def zioEff (f : Format) : Bool := Guard.always f.guard && f.z.io

/-! ### Operands (R115, R116) -/

/-- Phase 6 for an addressed x operand: from memory, or from the I/O space under `xio` (R115). -/
def readAddressedX (f : Format) (s : State) : State :=
  if xioEff f then loadXFromIo s else loadX s

/-- Phases 3 to 6: the x operand into X (R115). -/
def readX (f : Format) (s : State) : State :=
  match f.x.mode with
  | .absent => s
  | .immediate => loadX (stepPc s)
  | .direct => readAddressedX f (followY (stepPc s))
  | .indirect => readAddressedX f (followY (followY (stepPc s)))

/-- Phase 7: the PC cell into Y, needed only if an x operand was read (R116). -/
def reloadPc (f : Format) (s : State) : State :=
  match f.x.mode with
  | .absent => s
  | .immediate | .direct | .indirect => loadPc s

/-- Phase 8: the cell is stepped past the y operand word, except under a result `=`, which needs that word again (R116). -/
def stepPastY (f : Format) (s : State) : State :=
  match f.z.mode with
  | .same => s
  | .none | .direct | .indirect => stepPc s

/-- Phases 7 to 11: the y operand into Y (R116). -/
def readY (f : Format) (s : State) : State :=
  match f.y with
  | .absent => s
  | .immediate => followY (stepPastY f (reloadPc f s))
  | .direct => followY (followY (stepPastY f (reloadPc f s)))
  | .indirect => followY (followY (followY (stepPastY f (reloadPc f s))))

/-- Phases 2 to 11: the request lines are sampled, the PC is stepped and the operands are read. Y holds the address of
the instruction word when this begins (R110 b to e). -/
def operandState (f : Format) (s : State) : State :=
  readY f (readX f (stepPcAndY (sampleLines s)))

/-! ### The ALU's inputs (R117) -/

/-- The x operand as it is without `&`: X, or 1 if there is none. -/
def plainX (f : Format) (s : State) : Word :=
  match f.x.mode with
  | .absent => 1
  | .immediate | .direct | .indirect => s.x

/-- The part of the x operand that `&` leaves: bits 15, 14 and 7:4, of X or of nothing. -/
def unmergedX (f : Format) (s : State) : Word :=
  match f.x.mode with
  | .absent => 0
  | .immediate | .direct | .indirect => s.x &&& 0xC0F0

/-- `xv`: the x operand, bits 13:8 and 3:0 replaced by those of `sr` under `&` (R117). -/
def xInput (f : Format) (s : State) : Word :=
  if xsrEff f then unmergedX f s ||| srRead s.sr else plainX f s

/-- `yv`: the y operand, or 0 if there is none (R117). -/
def yInput (f : Format) (s : State) : Word :=
  match f.y with
  | .absent => 0
  | .immediate | .direct | .indirect => s.y

/-! ### Result and flags (R118) -/

/-- What the ALU function of an instruction computes from a state whose operands have been read. -/
def aluResult (alu : Word → Word → Bool → AluOut) (f : Format) (s : State) : AluOut :=
  alu (xInput f s) (yInput f s) (flagC s.sr)

/-- `sr` after phase 12, in an instruction with `exec = run`: the flags from the operation, or from the result under
`&`, if the instruction is executed and sets flags (R118). -/
def srAfterAlu (run : Bool) (f : Format) (o : AluOut) (s : State) : Word :=
  if run && f.setFlags then
    if zsrEff f then withFlagsFrom s.sr o.z else withAluFlags s o
  else s.sr

/-- Phase 12: the result into X, and the flags. The computation is done whether or not the instruction is executed
(R118). -/
def aluPhase (alu : Word → Word → Bool → AluOut) (run : Bool) (f : Format) (s : State) : State :=
  { s with
    x := (aluResult alu f s).z
    sr := srAfterAlu run f (aluResult alu f s) s }

/-! ### Destination (R119 to R121) -/

/-- The class of the destination (R119). -/
inductive Destination where
  /-- Class N: the result is discarded. -/
  | none
  /-- Class P: the result goes to the current program counter cell. -/
  | pc
  /-- Class S: the result is stored, at the address reached by reading `reads` words from the operand word's address. -/
  | store (reads : Nat)
  deriving DecidableEq, Repr

/-- The class of an instruction's destination; under `=` the mode is that of the y operand (R119, R120). -/
def destination (f : Format) : Destination :=
  match f.z.mode with
  | .none => .none
  | .direct => .store 1
  | .indirect => .store 2
  | .same =>
    match f.y with
    | .absent => .pc
    | .immediate => .store 0
    | .direct => .store 1
    | .indirect => .store 2

/-- The destination is of class S (R119). -/
def isStore (f : Format) : Bool :=
  match destination f with
  | .none => false
  | .pc => false
  | .store _ => true

/-- Phases 15 and 16: read as many words of address as the destination asks for (R120). -/
def followAddress : Nat → State → State
  | 0, s => s
  | n + 1, s => followAddress n (followY s)

/-- Phases 13 and 14: the address of the operand word that names the destination into Y, and the cell stepped past it. -/
def stepToResult (s : State) : State := stepPc (loadPc s)

/-- Phase 17: the result, held in X, to memory or to the I/O space (R120). -/
def storeResult (f : Format) (s : State) : State :=
  if zioEff f then storeXToIo s else storeX s

/-- The upper half of `sr`, last of all (R121). -/
def writeHigh (f : Format) (s : State) : State :=
  if zsrEff f then writeSrHigh s else s

/-- Phase 12's store to the PC cell and phases 13 to 17 (R119 to R121). A class S instruction that is not executed still
steps the PC, and takes the new PC along in Y (R120, R293). -/
def writeResult (run : Bool) (f : Format) (s : State) : State :=
  match destination f with
  | .none => s
  | .pc => if run then memWrite s (pca s) s.x else s
  | .store reads =>
    if run then writeHigh f (storeResult f (followAddress reads (stepToResult s)))
    else { stepToResult s with y := (stepToResult s).y + 1 }

/-- The address of phase 17's store, in a state in which the ALU phase is over (R120). -/
def storeAddress (reads : Nat) (s : State) : Word := (followAddress reads (stepToResult s)).y

/-! ### The end of the instruction (R122) -/

/-- The phase in which the next instruction begins: P14 leads straight to P1 if the instruction was not executed (R213,
R293). -/
def phaseAfter (run : Bool) (f : Format) : StartPhase :=
  if isStore f && !run then .p1 else .p0

/-- After the last phase: an executed instruction lets the recorded requests take effect; one that was not executed
leaves them in the latch (R122, R256). -/
def finish (run : Bool) (f : Format) (s : State) : State :=
  { (if run then takeInterrupts s else s) with phase := phaseAfter run f, index := s.index + 1 }

/-- One instruction with ALU function `alu`, from phase 2 on: Y holds the address of its instruction word (R110). -/
def execute (alu : Word → Word → Bool → AluOut) (f : Format) (s : State) : State :=
  let run := executes f.guard s.sr
  finish run f (writeResult run f (aluPhase alu run f (operandState f s)))

/-! ### An instruction placed for the next fetch (no instruction does this; log entry 8) -/

/-- One of the four words from an address on is the given cell. -/
def windowHits (a cell : Word) : Bool := decide ((cell - a).toNat < 4)

/-- The state with words placed where the next step fetches its instruction. Where the words would lie over the current
PC cell, which the fetch itself reads or writes, the instruction is placed at `$8000` and the fetch directed there. -/
def placeWords (ws : List Word) (s : State) : State :=
  if windowHits (fetchAddress s) (pca s) then
    match s.phase with
    | .p0 => { s with mem := (s.mem.write (pca s).toNat 0x8000).load 0x8000 ws }
    | .p1 => { s with y := 0x8000, mem := s.mem.load 0x8000 ws }
  else { s with mem := s.mem.load (fetchAddress s) ws }

end Sys2Proof.Machine
end

