-- ==== Sys2Proof/Machine/Arithmetic.lean ====
section
/-! DEFINITION. The arithmetic instructions add, sub, addc, subc (spec 41_arithmetic.md R150 to R154): for each the ALU function and
the meaning, which is that function in the common sequence of `Operands.lean`. No instruction can stop (R250). -/

namespace Sys2Proof.Machine

/-- `add`: z = x + y (R151). -/
def aluAdd (x y : Word) (_cin : Bool) : AluOut := addOut x y false

/-- `add x,y,z` (R151). -/
def execAdd (f : Format) (s : State) : Host.Outcome State Fault Refusal := .next (execute aluAdd f s)

/-- `sub`: z = y - x (R152). -/
def aluSub (x y : Word) (_cin : Bool) : AluOut := subOut x y false

/-- `sub x,y,z` (R152). -/
def execSub (f : Format) (s : State) : Host.Outcome State Fault Refusal := .next (execute aluSub f s)

/-- `addc`: z = x + y + C (R153). -/
def aluAddc (x y : Word) (cin : Bool) : AluOut := addOut x y cin

/-- `addc x,y,z` (R153). -/
def execAddc (f : Format) (s : State) : Host.Outcome State Fault Refusal := .next (execute aluAddc f s)

/-- `subc`: z = y - x - C (R154). -/
def aluSubc (x y : Word) (cin : Bool) : AluOut := subOut x y cin

/-- `subc x,y,z` (R154). -/
def execSubc (f : Format) (s : State) : Host.Outcome State Fault Refusal := .next (execute aluSubc f s)

end Sys2Proof.Machine
end

