-- ==== Sys2Proof/Machine/Logic.lean ====
section
/-! DEFINITION. The logic instructions nor, and, eor, or (spec 42_logic.md R160 to R164): for each the ALU function and
the meaning, which is that function in the common sequence of `Operands.lean`. No instruction can stop (R250). -/

namespace Sys2Proof.Machine

/-- `nor`: z = x nor y, C = 0 (R161). -/
def aluNor (x y : Word) (cin : Bool) : AluOut := undefinedVOut (~~~(x ||| y)) false false false x y cin

/-- `nor x,y,z` (R161). -/
def execNor (f : Format) (s : State) : Host.Outcome State Fault Refusal := .next (execute aluNor f s)

/-- `and`: z = x and y, C = 0 (R162). -/
def aluAnd (x y : Word) (cin : Bool) : AluOut := undefinedVOut (x &&& y) false false true x y cin

/-- `and x,y,z` (R162). -/
def execAnd (f : Format) (s : State) : Host.Outcome State Fault Refusal := .next (execute aluAnd f s)

/-- `eor`: z = x eor y, C = 0 (R163). -/
def aluEor (x y : Word) (cin : Bool) : AluOut := undefinedVOut (x ^^^ y) false true false x y cin

/-- `eor x,y,z` (R163). -/
def execEor (f : Format) (s : State) : Host.Outcome State Fault Refusal := .next (execute aluEor f s)

/-- `or`: z = x or y, C = 0 (R164). -/
def aluOr (x y : Word) (cin : Bool) : AluOut := undefinedVOut (x ||| y) false true true x y cin

/-- `or x,y,z` (R164). -/
def execOr (f : Format) (s : State) : Host.Outcome State Fault Refusal := .next (execute aluOr f s)

end Sys2Proof.Machine
end

