-- ==== Sys2Proof/Machine/Shift.lean ====
section
/-! DEFINITION. The shift, rotate and byte-swap instructions (spec 43_shift_rotate_swap.md R170 to R178): for each the ALU function and
the meaning, which is that function in the common sequence of `Operands.lean`. No instruction can stop (R250). -/

namespace Sys2Proof.Machine

/-- The word with its bits moved right by one place and `top` in bit 15 (R171 to R174). -/
def rightOne (top : Bool) (x : Word) : Word := (x >>> 1) ||| placeField (BitVec.ofBool top) 15

/-- The word with its bits moved left by one place and `low` in bit 0 (R175 to R177). -/
def leftOne (x : Word) (low : Bool) : Word := (x <<< 1) ||| placeField (BitVec.ofBool low) 0

/-- `ror`: rotate x right by one (R171). -/
def aluRor (x y : Word) (cin : Bool) : AluOut := undefinedVOut (rightOne x[0] x) x[0] false false x y cin

/-- `ror x,y,z` (R171). -/
def execRor (f : Format) (s : State) : Host.Outcome State Fault Refusal := .next (execute aluRor f s)

/-- `rorc`: rotate x right by one through the carry (R172). -/
def aluRorc (x y : Word) (cin : Bool) : AluOut := undefinedVOut (rightOne cin x) x[0] false true x y cin

/-- `rorc x,y,z` (R172). -/
def execRorc (f : Format) (s : State) : Host.Outcome State Fault Refusal := .next (execute aluRorc f s)

/-- `asr`: shift x right by one, keeping the sign (R173). -/
def aluAsr (x y : Word) (cin : Bool) : AluOut := undefinedVOut (rightOne x[15] x) x[0] true false x y cin

/-- `asr x,y,z` (R173). -/
def execAsr (f : Format) (s : State) : Host.Outcome State Fault Refusal := .next (execute aluAsr f s)

/-- `lsr`: shift x right by one, filling with 0 (R174). -/
def aluLsr (x y : Word) (cin : Bool) : AluOut := undefinedVOut (rightOne false x) x[0] true true x y cin

/-- `lsr x,y,z` (R174). -/
def execLsr (f : Format) (s : State) : Host.Outcome State Fault Refusal := .next (execute aluLsr f s)

/-- `rol`: rotate x left by one (R175). -/
def aluRol (x y : Word) (cin : Bool) : AluOut := undefinedVOut (leftOne x x[15]) x[15] false false x y cin

/-- `rol x,y,z` (R175). -/
def execRol (f : Format) (s : State) : Host.Outcome State Fault Refusal := .next (execute aluRol f s)

/-- `rolc`: rotate x left by one through the carry (R176). -/
def aluRolc (x y : Word) (cin : Bool) : AluOut := undefinedVOut (leftOne x cin) x[15] false true x y cin

/-- `rolc x,y,z` (R176). -/
def execRolc (f : Format) (s : State) : Host.Outcome State Fault Refusal := .next (execute aluRolc f s)

/-- `asl`: shift x left by one, filling with 0 (R177). -/
def aluAsl (x y : Word) (cin : Bool) : AluOut := undefinedVOut (leftOne x false) x[15] true false x y cin

/-- `asl x,y,z` (R177). -/
def execAsl (f : Format) (s : State) : Host.Outcome State Fault Refusal := .next (execute aluAsl f s)

/-- `lsl x,y,z`, the second spelling of `asl x,y,z` (R101, R177). -/
def execLsl (f : Format) (s : State) : Host.Outcome State Fault Refusal := .next (execute aluAsl f s)

/-- `bswp`: the low byte of y, then the high byte of x (R178). -/
def aluBswp (x y : Word) (cin : Bool) : AluOut := undefinedVOut ((y <<< 8) ||| (x >>> 8)) x[15] true true x y cin

/-- `bswp x,y,z` (R178). -/
def execBswp (f : Format) (s : State) : Host.Outcome State Fault Refusal := .next (execute aluBswp f s)

end Sys2Proof.Machine
end

