-- ==== Sys2Proof/Machine/Dispatch.lean ====
section
/-! DEFINITION. One arm per instruction (spec 30_encoding.md R82). -/

namespace Sys2Proof.Machine

def exec (i : Instr) (s : State) : Host.Outcome State Fault Refusal :=
  match i with
  | .add f => Sys2Proof.Machine.execAdd f s
  | .nor f => Sys2Proof.Machine.execNor f s
  | .ror f => Sys2Proof.Machine.execRor f s
  | .rol f => Sys2Proof.Machine.execRol f s
  | .sub f => Sys2Proof.Machine.execSub f s
  | .and f => Sys2Proof.Machine.execAnd f s
  | .rorc f => Sys2Proof.Machine.execRorc f s
  | .rolc f => Sys2Proof.Machine.execRolc f s
  | .addc f => Sys2Proof.Machine.execAddc f s
  | .eor f => Sys2Proof.Machine.execEor f s
  | .asr f => Sys2Proof.Machine.execAsr f s
  | .asl f => Sys2Proof.Machine.execAsl f s
  | .lsl f => Sys2Proof.Machine.execLsl f s
  | .subc f => Sys2Proof.Machine.execSubc f s
  | .or f => Sys2Proof.Machine.execOr f s
  | .lsr f => Sys2Proof.Machine.execLsr f s
  | .bswp f => Sys2Proof.Machine.execBswp f s

end Sys2Proof.Machine
end

