-- ==== Sys2Proof/Machine/Step.lean ====
section
/-! DEFINITION. One step of the machine: one instruction (spec 40_execution_sequence.md R110). -/

namespace Sys2Proof.Machine

/-- One step: fetch the instruction word, decode it, run the instruction. -/
def step (s : State) : Host.Outcome State Fault Refusal :=
  exec (decodeWord (fetch s).ir) (fetch s)

/-- The state with an instruction stored where the next step fetches it; the instruction's bits are `w`, numbered as the
opcode table numbers them. The words are loaded from outside the machine, into ROM as well (log entry 8). -/
def State.withFetchWord (s : State) (nbits w : Nat) : State := placeWords (tableWords nbits w) s

end Sys2Proof.Machine
end

