-- ==== Sys2Proof/Machine/Sequencer.lean ====
section
/-! DEFINITION. The processor phase by phase, as the second half of the source describes it (spec
48_sequencer_and_datapath.md R210 to R226): the eighteen phases, the transition table, the control-signal table, the
output equations, the function blocks, and the machine they make. It is a second description of the machine of
`Step.lean`, written from other tables; an obligation says that the two agree. -/

namespace Sys2Proof.Machine.Sequencer

/-- The phases of the sequencer (R210). -/
inductive Phase where
  | p0 | p1 | p2 | p3 | p4 | p5 | p6 | p7 | p8 | p9 | p10 | p11 | p12 | p13 | p14 | p15 | p16 | p17
  deriving DecidableEq, Repr

/-! ### The transition table -/

/-- `C9` for an instruction word: `B9`, or `B7` if `B9,B8 = 0,1` (R214). -/
def c9 (b : Word) : Bool := if !b[9] && b[8] then b[7] else b[9]

/-- `C8` for an instruction word: `B8`, or `B6` if `B9,B8 = 0,1` (R214). -/
def c8 (b : Word) : Bool := if !b[9] && b[8] then b[6] else b[8]

/-- The phase after a phase, for instruction word `b` and the signal `CC` (R213). -/
def nextPhase (b : Word) (cc : Bool) : Phase → Phase
  | .p0 => .p1
  | .p1 => .p2
  | .p2 =>
    if b[4] || b[5] then .p3
    else if (b[6] || b[7]) && (!b[8] || b[9]) then .p8
    else if (b[6] || b[7]) && b[8] && !b[9] then .p9
    else .p12
  | .p3 => if b[4] && b[5] then .p4 else if !b[4] && b[5] then .p5 else .p6
  | .p4 => .p5
  | .p5 => .p6
  | .p6 => if b[6] || b[7] then .p7 else .p12
  | .p7 => if !b[8] || b[9] then .p8 else .p9
  | .p8 => .p9
  | .p9 => if b[6] && b[7] then .p10 else if !b[6] && b[7] then .p11 else .p12
  | .p10 => .p11
  | .p11 => .p12
  | .p12 => if c9 b || c8 b then .p13 else .p0
  | .p13 => .p14
  | .p14 => if !cc then .p1 else if c9 b then .p15 else .p17
  | .p15 => if c8 b then .p16 else .p17
  | .p16 => .p17
  | .p17 => .p0

/-! ### The functions f1 to f10 (R212) -/

/-- `f1 f5 f6`, the level number in binary, from `In = sr[8+n]`. -/
def levelBits (sr : Word) : BitVec 3 :=
  if !sr[13] then 0b101
  else if !sr[12] then 0b100
  else if !sr[11] then 0b011
  else if !sr[10] then 0b010
  else if !sr[9] then 0b001
  else 0b000

/-- `f2 = B6 + B7`, as printed. -/
def f2 (b : Word) : Bool := b[6] || b[7]
/-- `f3`. -/
def f3 (b : Word) : Bool := !(b[15] && b[11])
/-- `f4`. -/
def f4 (b : Word) : Bool := b[4] || b[5]
/-- `f7 = B13 & B11`, as printed. -/
def f7 (b : Word) : Bool := b[13] && b[11]
/-- `f8`. -/
def f8 (b : Word) : Bool := b[14] && b[11] && b[5]
/-- `f9`. -/
def f9 (b : Word) : Bool := b[12] && b[11]
/-- `f10`: 0 exactly in the "Besonderheit" case of an executed instruction. -/
def f10 (b : Word) (cc : Bool) : Bool := !(!b[7] && !b[6] && !b[9] && b[8] && cc)

/-! ### The control signals -/

/-- The control signals of a phase, without the level number on `Ad2..Ad0` (R211). `io` and `mem` are active low. -/
structure Signals where
  eb : Bool
  ey : Bool
  ex : Bool
  gy : Bool
  gx1 : Bool
  gx0 : Bool
  ga : Bool
  al4 : Bool
  al : BitVec 4
  io : Bool
  mem : Bool
  rw : Bool
  deriving DecidableEq, Repr

/-- A row of the control-signal table; `none` is the source's "don't care" (R211). -/
structure Row where
  eb : Option Bool
  ey : Option Bool
  ex : Option Bool
  gy : Option Bool
  gx1 : Option Bool
  gx0 : Option Bool
  ga : Option Bool
  al4 : Option Bool
  al : Option (BitVec 4)
  io : Bool
  mem : Bool
  rw : Bool
  deriving DecidableEq, Repr

/-- Row of a phase that reads a word into Y, X or the instruction register. -/
def readRow (eb ey ex ga : Option Bool) (io mem : Bool) : Row :=
  { eb := eb, ey := ey, ex := ex, gy := none, gx1 := none, gx0 := none, ga := ga, al4 := none, al := none
    io := io, mem := mem, rw := true }

/-- Row of a phase that writes `Y + 1` to the PC cell. -/
def incrementRow (ey ex : Option Bool) : Row :=
  { eb := some false, ey := ey, ex := ex, gy := some true, gx1 := some true, gx0 := some false, ga := some false
    al4 := none, al := some 0, io := true, mem := false, rw := false }

/-- The control-signal table (R211). -/
def controlTable (b : Word) (cc : Bool) : Phase → Row
  | .p0 => readRow none (some true) none (some false) true false
  | .p1 => readRow (some true) (some false) none (some true) true false
  | .p2 => incrementRow (some true) none
  | .p3 => incrementRow (some false) none
  | .p4 => readRow (some false) (some true) none (some true) true false
  | .p5 => readRow (some false) (some true) none (some true) true false
  | .p6 => readRow (some false) none (some true) (some true) (!f8 b) (f8 b)
  | .p7 => readRow (some false) (some true) (some false) (some false) true false
  | .p8 => incrementRow (some false) (some false)
  | .p9 => readRow (some false) (some true) (some false) (some true) true false
  | .p10 => readRow (some false) (some true) (some false) (some true) true false
  | .p11 => readRow (some false) (some true) (some false) (some true) true false
  | .p12 =>
    { eb := some false, ey := none, ex := some true, gy := some (f2 b), gx1 := some (f3 b), gx0 := some (f4 b)
      ga := some false, al4 := some (f7 b), al := some (b.extractLsb' 0 4), io := true, mem := f10 b cc, rw := false }
  | .p13 => readRow (some false) (some true) (some false) (some false) true false
  | .p14 => incrementRow (some !cc) (some false)
  | .p15 => readRow (some false) (some true) (some false) (some true) true false
  | .p16 => readRow none (some true) (some false) (some true) true false
  | .p17 =>
    { eb := none, ey := none, ex := none, gy := some false, gx1 := some true, gx0 := some true, ga := some true
      al4 := none, al := some 0, io := !f9 b, mem := f9 b, rw := false }

/-- The phase is one of those listed. -/
def isIn (p : Phase) (ps : List Phase) : Bool := ps.contains p

/-- The output equations, which settle every "don't care" as 0 (R216). -/
def outputs (b : Word) (cc : Bool) (p : Phase) : Signals :=
  { eb := isIn p [.p1]
    ey := isIn p [.p0, .p2, .p4, .p5, .p7, .p9, .p10, .p11, .p13, .p15, .p16] || (isIn p [.p14] && !cc)
    ex := isIn p [.p6, .p12]
    gy := isIn p [.p2, .p3, .p8, .p14] || (isIn p [.p12] && f2 b)
    gx1 := isIn p [.p2, .p3, .p8, .p14, .p17] || (isIn p [.p12] && f3 b)
    gx0 := isIn p [.p17] || (isIn p [.p12] && f4 b)
    ga := isIn p [.p1, .p4, .p5, .p6, .p9, .p10, .p11, .p15, .p16, .p17]
    al4 := isIn p [.p12] && f7 b
    al := if isIn p [.p12] then b.extractLsb' 0 4 else 0
    io := !((isIn p [.p6] && f8 b) || (isIn p [.p17] && f9 b))
    mem := (isIn p [.p6] && f8 b) || (isIn p [.p12] && f10 b cc) || (isIn p [.p17] && f9 b)
    rw := !isIn p [.p2, .p3, .p8, .p12, .p14, .p17] }

/-- The printed flip-flop inputs `D0`, `D1`, `D2` of a one-flip-flop-per-phase sequencer (R217). -/
def d0 (b : Word) (p : Phase) : Bool := (isIn p [.p12] && !c9 b && !c8 b) || isIn p [.p17]
/-- `D1 = P0 + P14 & (~CC)`. -/
def d1 (cc : Bool) (p : Phase) : Bool := isIn p [.p0] || (isIn p [.p14] && !cc)
/-- `D2 = P1`. -/
def d2 (p : Phase) : Bool := isIn p [.p1]
/-- `D3 = P2`, whichever of its four successors follows phase 2. -/
def d3 (p : Phase) : Bool := isIn p [.p2]
/-- `R3 = P8 + P9 + P12`: the successors of phase 2 other than phase 3. -/
def r3 (p : Phase) : Bool := isIn p [.p8, .p9, .p12]

/-! ### The function blocks -/

/-- Block 5, XMUX: `a` is the status register, `b` the output of XREG (R222). -/
def xmux (s1 s0 : Bool) (a b : Word) : Word :=
  match s1, s0 with
  | false, false => placeField (a.extractLsb' 8 6) 8 ||| placeField (a.extractLsb' 0 4) 0
  | false, true =>
    placeField (b.extractLsb' 14 2) 14 ||| placeField (a.extractLsb' 8 6) 8 ||| placeField (b.extractLsb' 4 4) 4 |||
      placeField (a.extractLsb' 0 4) 0
  | true, false => 0x0001
  | true, true => b

/-- Block 6, YGATE (R223). -/
def ygate (g : Bool) (a : Word) : Word := if g then a else 0x0000

/-- Block 7, AGATE (R224). -/
def agate (g : Bool) (s : BitVec 3) (a : Word) : Word := if g then a else placeField s 0

/-- Block 8, the ALU's result and carry by the function table: `s1 s0` choose the group, `s3 s2` the operation (R225). -/
def aluBlock (s : BitVec 4) (x y : Word) (cin : Bool) : Word × Bool :=
  match s[1], s[0], s[3], s[2] with
  | false, false, false, false => (x + y, decide (2 ^ 16 ≤ x.toNat + y.toNat))
  | false, false, false, true => (y - x, decide (y.toNat < x.toNat))
  | false, false, true, false =>
    (x + y + (if cin then 1 else 0), decide (2 ^ 16 ≤ x.toNat + y.toNat + cin.toNat))
  | false, false, true, true =>
    (y - x - (if cin then 1 else 0), decide (y.toNat < x.toNat + cin.toNat))
  | false, true, false, false => (~~~(x ||| y), false)
  | false, true, false, true => (x &&& y, false)
  | false, true, true, false => (x ^^^ y, false)
  | false, true, true, true => (x ||| y, false)
  | true, false, false, false => (x.rotateRight 1, x[0])
  | true, false, false, true => ((x.rotateRight 1 &&& 0x7FFF) ||| (if cin then 0x8000 else 0), x[0])
  | true, false, true, false => (x.sshiftRight 1, x[0])
  | true, false, true, true => (x >>> 1, x[0])
  | true, true, false, false => (x.rotateLeft 1, x[15])
  | true, true, false, true => ((x.rotateLeft 1 &&& 0xFFFE) ||| (if cin then 1 else 0), x[15])
  | true, true, true, false => (x <<< 1, x[15])
  | true, true, true, true => (placeField (y.extractLsb' 0 8) 8 ||| placeField (x.extractLsb' 8 8) 0, x[15])

/-- Block 8, the `VF` column: by `s3 s2` alone (R225). -/
def aluBlockV (s : BitVec 4) (x y : Word) (cin : Bool) : Bool := tableV s[3] s[2] x y cin

/-- The operation's description defines V: the arithmetic group alone (R150, R160, R170). -/
def definesV (s : BitVec 4) : Bool := !s[1] && !s[0]

/-! ### The machine -/

/-- One access on the bus: the phase that makes it, the space, the direction and the address (R124). -/
structure Access where
  phase : Phase
  io : Bool
  write : Bool
  address : Word
  deriving DecidableEq, Repr

/-- Which of the three select pins is 0 (R53). -/
inductive Select where
  | ram | rom | io
  deriving DecidableEq, Repr

/-- `RAMSEL~`, `ROMSEL~`, `IOSEL~`: bit 15 of a memory address chooses between RAM and ROM (R50, R51). -/
def Access.select (a : Access) : Select :=
  if a.io then .io else if isRam a.address then .ram else .rom

/-- `A14-A0` (R50, R51). -/
def Access.addressPins (a : Access) : IoAddr := ioAddr a.address

/-- The machine inside an instruction: the registers and memories, the phase, the signal `CC`, and the accesses and
phases of the instruction so far. `CC` is held from phase 2 on, since it is evaluated once, on the flags as they were
at the start (R112, D6; log entry 12). -/
structure Micro where
  st : State
  phase : Phase
  cc : Bool
  accesses : List Access
  phases : Nat
  deriving DecidableEq, Repr

/-- The word on the data bus of a phase: what is read from memory or the I/O space, or what the ALU drives (R226). -/
def busWord (sig : Signals) (address z : Word) (s : State) : Word :=
  if !sig.rw then z
  else if !sig.io then ioAnswer s (ioAddr address)
  else memRead s address

/-- What the bus access of a phase does to memory and to the I/O space (R226). -/
def busEffect (sig : Signals) (address z : Word) (s : State) : State :=
  if !sig.mem then (if sig.rw then s else memWrite s address z)
  else if !sig.io then
    if sig.rw then
      { s with ioIn := s.ioIn.tail, ioTrace := s.ioTrace ++ [.read (ioAddr address) (ioAnswer s (ioAddr address))] }
    else { s with ioTrace := s.ioTrace ++ [.write (ioAddr address) z] }
  else s

/-- The access of a phase, if it selects memory or the I/O space. -/
def accessOf (sig : Signals) (p : Phase) (address : Word) : List Access :=
  if sig.mem && sig.io then []
  else [{ phase := p, io := !sig.io, write := !sig.rw, address := address }]

/-- What `SR_OUT[3:0]` puts in the flags in phase 12 (R118, R225). -/
def flagsOut (sig : Signals) (s : State) (x y : Word) (cin : Bool) : Word :=
  if sig.al4 then withFlagsFrom s.sr (aluBlock sig.al x y cin).1
  else withFlags s.sr
    (resolveV s (if definesV sig.al then .defined (aluBlockV sig.al x y cin) else .undefined (aluBlockV sig.al x y cin)))
    (aluBlock sig.al x y cin).1[15] (decide ((aluBlock sig.al x y cin).1 = 0)) (aluBlock sig.al x y cin).2

/-- The instruction ends with this phase: the next phase is P0, or P1 after P14 (R213). -/
def endsInstruction (b : Word) (cc : Bool) (p : Phase) : Bool :=
  match p with
  | .p12 => !c9 b && !c8 b
  | .p14 => !cc
  | .p17 => true
  | _ => false

/-- `sr` when the phase is over: flags in phase 12, the upper half at the end of phase 17 (R118, R121). -/
def srAfterPhase (m : Micro) (sig : Signals) (x y : Word) : Word :=
  match m.phase with
  | .p12 => if m.cc && m.st.ir[10] then flagsOut sig m.st x y (flagC m.st.sr) else m.st.sr
  | .p17 => if f7 m.st.ir then withHighFrom m.st.sr m.st.x else m.st.sr
  | _ => m.st.sr

/-- `CC = B11 + cond(B15..B12, flags)` (R112, R214). -/
def ccSignal (b sr : Word) : Bool := b[11] || condHolds (decodeCond b[15] b[14] b[13] b[12]) sr

/-- The end of an instruction: the recorded requests take effect if it was executed (R122, R256). -/
def endOfInstruction (cc : Bool) (next : Phase) (s : State) : State :=
  { (if cc then takeInterrupts s else s) with
    phase := if next = .p0 then .p0 else .p1
    index := s.index + 1 }

/-- One phase: the blocks put an address and a word on the buses, the access happens, the registers whose enable is 1
load, and the sequencer moves on (R211, R213, R226). -/
def microStep (m : Micro) : Micro :=
  let cc := if m.phase = .p2 then ccSignal m.st.ir m.st.sr else m.cc
  let s0 := if m.phase = .p2 then sampleLines m.st else m.st
  let sig := outputs m.st.ir cc m.phase
  let address := agate sig.ga (levelBits s0.sr) s0.y
  let xin := xmux sig.gx1 sig.gx0 s0.sr s0.x
  let yin := ygate sig.gy s0.y
  let z := (aluBlock sig.al xin yin (flagC s0.sr)).1
  let d := busWord sig address z s0
  let s1 := busEffect sig address z s0
  let s2 : State :=
    { s1 with
      x := if sig.ex then d else s0.x
      y := if sig.ey then d else s0.y
      ir := if sig.eb then d else s0.ir
      sr := srAfterPhase m sig xin yin }
  let next := nextPhase m.st.ir cc m.phase
  { st := if endsInstruction m.st.ir cc m.phase then endOfInstruction cc next s2 else s2
    phase := next
    cc := cc
    accesses := m.accesses ++ accessOf sig m.phase address
    phases := m.phases + 1 }

/-- The machine about to begin an instruction. -/
def start (s : State) : Micro :=
  { st := s
    phase := match s.phase with
      | .p0 => .p0
      | .p1 => .p1
    cc := false
    accesses := []
    phases := 0 }

/-- The reset pin pulled in the middle of an instruction and released: what the phases so far have stored stays, and the rest
of the instruction does not happen (R280, R283, D16; log entry 6). -/
def resetAt (m : Micro) : Micro := start (resetPin m.st)

/-- Run phases until the instruction ends, at most as many as `fuel`. -/
def runPhases : Nat → Micro → Micro
  | 0, m => m
  | fuel + 1, m =>
    if endsInstruction (microStep m).st.ir (microStep m).cc m.phase then microStep m
    else runPhases fuel (microStep m)

/-- One instruction, phase by phase; no instruction has more than 18 phases (R292). -/
def runInstruction (s : State) : Micro := runPhases 18 (start s)

end Sys2Proof.Machine.Sequencer
end

