-- ==== Sys2Proof/Machine/Timing.lean ====
section
/-! DEFINITION. Phases per instruction and clock periods per phase (spec 70_reset_and_hazards.md R291 to R293). No step
depends on them. -/

namespace Sys2Proof.Machine

/-- Phases 3 to 6: those that read the x operand (R292). -/
def xPhases (f : Format) : Nat :=
  match f.x.mode with
  | .absent => 0
  | .immediate => 2
  | .direct => 3
  | .indirect => 4

/-- Phases 7 to 11: those that read the y operand (R292). -/
def yPhases (f : Format) : Nat :=
  if f.y = .absent then 0
  else
    (if f.x.mode = .absent then 0 else 1) + (if f.z.mode = .same then 0 else 1) + 1 +
      (match f.y with
        | .indirect => 2
        | .direct => 1
        | .absent | .immediate => 0)

/-- Phases 13 to 17: those that store the result (R292). -/
def zPhases (run : Bool) (f : Format) : Nat :=
  match destination f with
  | .none | .pc => 0
  | .store reads => 2 + (if run then reads + 1 else 0)

/-- The number of phases of an instruction that begins in phase `p` (R292, R293). -/
def phaseCount (p : StartPhase) (run : Bool) (f : Format) : Nat :=
  (match p with
    | .p0 => 1
    | .p1 => 0) + 2 + xPhases f + yPhases f + 1 + zPhases run f

/-- Periods of the processor clock `TAKT` per phase (R291). -/
def clocksPerPhase : Nat := 8

/-- `T0` in the `n`-th period of the clock after reset, counted from 0: low for four, high for four (R221). -/
def clockT0 (n : Nat) : Bool := decide (4 ≤ n % clocksPerPhase)

/-- `T1`: high in the first period of `T0`'s high time (R221). -/
def clockT1 (n : Nat) : Bool := decide (n % clocksPerPhase = 4)

/-- `T2`: high from one period before `T0` rises until `T1` falls (R221). -/
def clockT2 (n : Nat) : Bool := decide (n % clocksPerPhase = 3) || decide (n % clocksPerPhase = 4)

/-- The number of clock periods of an instruction (R291, R292). -/
def clockCount (p : StartPhase) (run : Bool) (f : Format) : Nat := clocksPerPhase * phaseCount p run f

end Sys2Proof.Machine
end

