-- ==== Sys2Proof/Safety.lean ====
section
/-! DEFINITION. What counts as a safe run of this machine, in the terms claims use. No step can stop (spec
60_exceptions.md R250); what every step keeps is `Inv`; a run ends, by the spec's convention, in a jump to itself
(44_control_sr_io_forms.md R205). -/

namespace Sys2Proof.Machine

/-- The places of `sr` that do not exist hold 0 (10_state.md R22). -/
def srReservedZero (s : State) : Bool := decide (s.sr &&& 0xC0F0 = 0)

/-- A request is pending in the latch only while interrupts are enabled: one is recorded only with `ie = 1` (R254), and
an instruction that keeps the latch writes nothing to `sr` (R123, R255). -/
def latchOnlyEnabled (s : State) : Bool := decide (s.latch = 0) || flagIe s.sr

/-- What every step keeps: memory in canonical form, the six places of `sr` that do not exist at 0, and nothing pending
in the latch while interrupts are disabled. -/
def Inv (s : State) : Bool := Memory.wf s.mem && srReservedZero s && latchOnlyEnabled s

/-- The step went on. -/
def continues (o : Host.Outcome State Fault Refusal) : Bool :=
  match o with
  | .next _ => true
  | .fault _ => false
  | .refused _ => false

/-- The next instruction is an executed jump of class P to its own address, and nothing is pending in the latch. A request
that is pending would take effect at the end of the jump, which the convention rules out: "no interrupt can follow"
(R205, D18). -/
def selfJumpNext (s : State) : Bool :=
  let t := fetch s
  let f := (decodeWord t.ir).format
  decide (destination f = .pc) && executes f.guard s.sr && decide (s.latch = 0) &&
    (match exec (decodeWord t.ir) t with
      | .next u => decide (memRead u (pca s) = t.y)
      | .fault _ => false
      | .refused _ => false)

/-- No request line is ever seen active from here on: not in the lines listed for the next instructions, nor in the free
values that stand for all instructions after those (R205, R253). -/
def noRequestEver (s : State) : Prop :=
  (∀ l ∈ s.irqIn, l = 0) ∧ ∀ k : Nat, s.index + s.irqIn.length ≤ k → Config.irqSeen k = 0

/-- A run has ended: the next instruction is an executed jump of class P to its own address, with interrupts disabled or
with no request line ever seen active afterwards (R205, D18; log entry 22). With `ie = 1` and a request to come, the
loop is an idle loop that the interrupt leaves, and the run has not ended. -/
def runEnded (s : State) : Prop :=
  selfJumpNext s = true ∧ (flagIe s.sr = false ∨ noRequestEver s)

end Sys2Proof.Machine
end

