-- ==== Sys2Proof/Certificates/Slice0/Obligations.lean ====
section
/-! DEFINITION. The statements for the provers. Each docstring names the rules of spec/ that its statement formalises;
where a clause rests on a choice of the model or of the spec, the docstring says so and names the log entry. -/

open Sys2Proof Sys2Proof.Machine

namespace Sys2Proof.Claims

/-! ### What the statements speak of -/

/-- The ALU's x input of an instruction that begins in `s`: the operands are read first. -/
def xv (f : Format) (s : State) : Word := xInput f (operandState f s)

/-- The ALU's y input of an instruction that begins in `s`. -/
def yv (f : Format) (s : State) : Word := yInput f (operandState f s)

/-- A flag as a number. -/
def bit (b : Bool) : Word := if b then 1 else 0

/-- Signed overflow of `x + y + c`, by the sign bits (R150). -/
def addOverflow (x y : Word) (c : Bool) : Bool := x[15] == y[15] && (x + y + bit c)[15] != x[15]

/-- Signed overflow of `y - x - c`, by the sign bits (R150). -/
def subOverflow (x y : Word) (c : Bool) : Bool := y[15] != x[15] && (y - x - bit c)[15] != y[15]

/-- V where the description calls it "undefiniert": under `V_LOGIC_MODE = any` the free value of this instruction, under
`alu_table` the ALU block's value `table` (R160, R170; log entry 1). -/
def undefinedV (s : State) (table : Bool) : Bool :=
  match s.vMode with
  | .any => Config.freeV s.index
  | .aluTable => table

/-- The instruction runs to a next state; its result is as `isResult` says; and if it is executed and sets flags from the
operation, C and V are the given bits, Z says whether the result is 0 and N is its bit 15 (R118). -/
def Computes (i : Instr) (s : State) (isResult : Word → Prop) (c v : Bool) : Prop :=
  ∃ t, exec i s = .next t ∧ isResult t.x ∧
    (executes i.format.guard s.sr = true → i.format.setFlags = true → zsrEff i.format = false →
      flagC t.sr = c ∧ flagZ t.sr = decide (t.x = 0) ∧ flagN t.sr = t.x[15] ∧ flagV t.sr = v)

/-- `z` is `x` moved right by one place, with `top` in bit 15. -/
def IsRightShift (x : Word) (top : Bool) (z : Word) : Prop :=
  z[15] = top ∧ ∀ (k : Nat) (h : k < 15), z[k] = x[k + 1]

/-- `z` is `x` moved left by one place, with `low` in bit 0. -/
def IsLeftShift (x : Word) (low : Bool) (z : Word) : Prop :=
  z[0] = low ∧ ∀ (k : Nat) (h : k < 15), z[k + 1] = x[k]

/-- The instruction is executed and stores its result (class S, R119). -/
def stores (i : Instr) (s : State) : Bool :=
  executes i.format.guard s.sr && isStore i.format

/-- The address to which an instruction of class S stores, once its operands have been read (R120). -/
def targetOf (i : Instr) (s : State) : Word :=
  match destination i.format with
  | .none | .pc => 0
  | .store reads => storeAddress reads (operandState i.format s)

/-- The latch after phase 2: what was pending, and with `ie = 1` every line seen active (R255). -/
def recorded (s : State) : Lines := if flagIe s.sr then s.latch ||| linesSeen s else s.latch

/-- The highest line among some, and 0 if there is none. -/
def highest (l : Lines) : Nat :=
  if l[4] then 5 else if l[3] then 4 else if l[2] then 3 else if l[1] then 2 else if l[0] then 1 else 0

/-- The address of the x operand of a direct or indirect mode: what Y holds in phase 6 (R115). -/
def xAddress (f : Format) (s : State) : Word :=
  match f.x.mode with
  | .absent | .immediate => 0
  | .direct => (followY (stepPc (stepPcAndY (sampleLines s)))).y
  | .indirect => (followY (followY (stepPc (stepPcAndY (sampleLines s))))).y

/-- The instruction reads the I/O space (R115, R200). -/
def readsIo (f : Format) : Bool :=
  xioEff f &&
    (match f.x.mode with
      | .absent | .immediate => false
      | .direct | .indirect => true)

/-- How many words a source operand's mode reads: the operand word, an address, a pointer (R83, R84). -/
def wordsRead : Mode → Nat
  | .absent => 0
  | .immediate => 1
  | .direct => 2
  | .indirect => 3

/-- A word of memory as an operand read meets it: the current PC cell holds `cell` by then, every other word is as it was
when the instruction began (R67, R193). -/
def readPast (s : State) (cell a : Word) : Word := if a = pca s then cell else memRead s a

/-- The word at the end of a chain of `n` such reads that begins at an address. -/
def lastRead (s : State) (cell : Word) : Nat → Word → Word
  | 0, a => a
  | n + 1, a => lastRead s cell n (readPast s cell a)

/-- The x operand before `&`, by its mode: 1, the operand word, or the word at the address that the operand word, or the
pointer there, gives, in memory or under `@` in the I/O space. The PC cell has been stepped past the x operand word
(R83, R115). -/
def xOperand (f : Format) (s : State) : Word :=
  let word := lastRead s (s.y + 2)
  match f.x.mode with
  | .absent => 1
  | .immediate => word 1 (s.y + 1)
  | .direct => if xioEff f then ioAnswer s (ioAddr (word 1 (s.y + 1))) else word 2 (s.y + 1)
  | .indirect => if xioEff f then ioAnswer s (ioAddr (word 2 (s.y + 1))) else word 3 (s.y + 1)

/-- The address of the y operand word of an instruction whose word is at `s.y` (R90). -/
def yWordAddress (f : Format) (s : State) : Word := s.y + 1 + BitVec.ofNat 16 f.x.mode.words

/-- The address of the operand word that names the result: the z operand word, or under `=` the y operand word (R85, R90). -/
def resultWordAddress (f : Format) (s : State) : Word :=
  yWordAddress f s + (if f.z.mode = .same then 0 else BitVec.ofNat 16 f.y.words)

/-- An unconditional format without modifiers. -/
def plain (sf : Bool) (x y : Mode) (z : ResultMode) : Format :=
  { guard := .tr, setFlags := sf, x := { sr := false, io := false, mode := x }, y := y
    z := { sr := false, io := false, mode := z } }

/-- The accesses of one instruction in their order, each with its phase, whether it goes to the I/O space and whether it
writes: the lines of the table of R124. -/
def accessTable (p : StartPhase) (run : Bool) (f : Format) : List (Sequencer.Phase × Bool × Bool) :=
  let x := decide (f.x.mode ≠ .absent)
  let xAddressed := decide (f.x.mode = .direct) || decide (f.x.mode = .indirect)
  let y := decide (f.y ≠ .absent)
  let (s, c9, c8) : Bool × Bool × Bool :=
    match destination f with
    | .none | .pc => (false, false, false)
    | .store 0 => (true, false, true)
    | .store 1 => (true, true, false)
    | .store _ => (true, true, true)
  (if p = .p0 then [(.p0, false, false)] else []) ++ [(.p1, false, false), (.p2, false, true)] ++
  (if x then [(.p3, false, true)] else []) ++
  (if f.x.mode = .indirect then [(.p4, false, false)] else []) ++
  (if xAddressed then [(.p5, false, false)] else []) ++
  (if x then [(.p6, xioEff f && xAddressed, false)] else []) ++
  (if x && y then [(.p7, false, false)] else []) ++
  (if y && decide (f.z.mode ≠ .same) then [(.p8, false, true)] else []) ++
  (if y then [(.p9, false, false)] else []) ++
  (if f.y = .indirect then [(.p10, false, false)] else []) ++
  (if decide (f.y = .direct) || decide (f.y = .indirect) then [(.p11, false, false)] else []) ++
  (if decide (destination f = .pc) && run then [(.p12, false, true)] else []) ++
  (if s then [(.p13, false, false), (.p14, false, true)] else []) ++
  (if s && run && c9 then [(.p15, false, false)] else []) ++
  (if s && run && c9 && c8 then [(.p16, false, false)] else []) ++
  (if s && run then [(.p17, zioEff f, true)] else [])

/-- The phases whose access is to the PC cell (`GA = 0`, R67). -/
def pcPhase (p : Sequencer.Phase) : Bool :=
  Sequencer.isIn p [.p0, .p2, .p3, .p7, .p8, .p12, .p13, .p14]

/-- The instruction that the next step runs. -/
def nextInstr (s : State) : Instr := decodeWord (memRead s (fetchAddress s))

end Sys2Proof.Claims

open Sys2Proof.Claims

/-! ### Reset and the step -/

/-- After reset, whatever memory holds: `sr`, X, the instruction register and the latch are 0, Y is `$8000`, the level is
5 with interrupts disabled, and the next instruction comes from `$8000` (R39, R281; the latch is D10, the fetch D1). -/
def Obligations.ResetLeavesLevelFiveAtRom : Prop :=
  ∀ (m : Memory) (v : VLogicMode),
    let s := State.resetWith m v
    s.sr = 0 ∧ s.x = 0 ∧ s.y = 0x8000 ∧ s.ir = 0 ∧ s.latch = 0 ∧ level s.sr = 5 ∧ flagIe s.sr = false ∧
      fetchAddress s = 0x8000 ∧ State.reset.sr = 0 ∧ fetchAddress State.reset = 0x8000

/-- The first instruction after reset is the one at `$8000`, whatever PC cell 5 holds, and cell 5 then holds the address after
it, unless the result went there: class P, or a store that hits cell 5 (R282, R125; that phase 0 is skipped is the
spec's decision D1, log entry 9). -/
def Obligations.FirstInstructionComesFromRomBase : Prop :=
  ∀ (m : Memory) (v : VLogicMode), ∃ t, step (State.resetWith m v) = .next t ∧
    let i := decodeWord (m.read 0x8000)
    let s : State := { State.resetWith m v with ir := m.read 0x8000 }
    exec i s = .next t ∧
    memRead t 5 =
      if (destination i.format = .pc ∧ executes i.format.guard 0 = true) ∨
          (stores i s = true ∧ zioEff i.format = false ∧ targetOf i s = 5)
      then t.x
      else 0x8000 + BitVec.ofNat 16 i.format.length

/-- The reset pin between two instructions puts every register, the phase and the latch as after reset: `sr`, X, the instruction
register and the latch 0, Y `$8000`, P1, so level 5 with interrupts disabled and the next fetch from `$8000` (R280,
R39; the phase is D1, the latch D10, log entries 9, 13). It leaves memory as it stands, which is the model's choice
(log entry 6). -/
def Obligations.ResetPinKeepsMemory : Prop :=
  ∀ s : State, let t := resetPin s
    t.sr = 0 ∧ t.x = 0 ∧ t.y = 0x8000 ∧ t.ir = 0 ∧ t.phase = .p1 ∧ t.latch = 0 ∧ t.mem = s.mem ∧
      level t.sr = 5 ∧ flagIe t.sr = false ∧ fetchAddress t = 0x8000

/-- The reset pin in any phase of an instruction: the machine begins again in P1 with every register and the latch as after
reset, at level 5 with interrupts disabled (R280, R39; the phase is D1, the latch D10, log entries 9, 13). What has been
stored so far stays, which is the model's choice (D16, log entry 6). -/
def Obligations.ResetInAnyPhaseStartsAgain : Prop :=
  ∀ m : Sequencer.Micro, let n := Sequencer.resetAt m
    n.phase = .p1 ∧ n.phases = 0 ∧ n.accesses = [] ∧
      n.st.sr = 0 ∧ n.st.x = 0 ∧ n.st.y = 0x8000 ∧ n.st.ir = 0 ∧ n.st.phase = .p1 ∧ n.st.latch = 0 ∧
      n.st.mem = m.st.mem ∧ level n.st.sr = 5 ∧ flagIe n.st.sr = false

/-- Every state after reset has what every step keeps, if its memory is canonical: `sr` is 0, its missing places with it (R39,
R22; that these hold 0 is D24, log entry 25). That the latch is 0 is the spec's decision D10 (log entry 13), that memory
is a canonical list of words log entry 7, that `State.reset` lists none, so that every word reads as 0, the model's
choice (log entry 5). -/
def Obligations.ResetHasInvariant : Prop :=
  Inv State.reset = true ∧ ∀ (m : Memory) (v : VLogicMode), Memory.wf m = true → Inv (State.resetWith m v) = true

/-- Every step keeps the canonical form of memory, the zeros of `sr`'s missing places (R22), and that nothing is pending
while interrupts are disabled (R254, R255, R123; the missing places are the spec's decision D24, the latch D7 and D10,
log entries 13, 14, 25). -/
def Obligations.EveryStepKeepsInvariant : Prop :=
  ∀ s t : State, Inv s = true → step s = .next t → Inv t = true

/-- No step stops: there is no fault, trap or abort, and every word is an instruction (R250, R93). -/
def Obligations.EveryStepGoesOn : Prop :=
  ∀ s : State, continues (step s) = true

/-- A step fetches the word at the fetch address and runs what it decodes to, with that address in Y and that word in the
instruction register (R110, R114). -/
def Obligations.StepRunsDecodedInstruction : Prop :=
  ∀ s : State, step s = exec (decodeWord (memRead s (fetchAddress s)))
    { s with y := fetchAddress s, ir := memRead s (fetchAddress s) }

/-- No step changes a word of ROM (R60, D12). -/
def Obligations.RomWordsNeverChange : Prop :=
  ∀ (s t : State) (a : Word), step s = .next t → isRam a = false → memRead t a = memRead s a

/-! ### Encoding -/

/-- For every instruction that has an encoding, with its operand words, decoding its words gives it back, `lsl` as `asl`,
and leaves the words after it (R80 to R90, R102). -/
def Obligations.DecodeInvertsEncode : Prop :=
  ∀ (p : InstrWords) (rest : List Word), p.wellFormed = true →
    decode (encodeWords p ++ rest) =
      .ok { code := { instr := p.instr.canonical, operands := p.operands }, rest := rest }

/-- Every one of the 2^16 words is the encoding of a well-formed instruction, the one it decodes to (R93). -/
def Obligations.EveryWordIsAnInstruction : Prop :=
  ∀ w : Word, encode (decodeWord w) = w ∧ (decodeWord w).wellFormed = true

/-- Words written out from the spec's encoding decode to the instructions they stand for (R102 and the decoding vectors;
a sanity check). -/
def Obligations.SampleWordsDecode : Prop :=
  decodeWord 0x0A90 = .add (plain false .immediate .direct .direct) ∧
  decodeWord 0x0D44 = .sub (plain true .absent .immediate .same) ∧
  decodeWord 0x5580 = .add { plain true .absent .direct .same with guard := .cond .cs } ∧
  decodeWord 0x4B6D =
    .or { plain false .direct .immediate .indirect with x := { sr := false, io := true, mode := .direct } } ∧
  decodeWord 0xAE45 = .and { plain true .absent .immediate .direct with
    x := { sr := true, io := false, mode := .absent }, z := { sr := true, io := false, mode := .direct } } ∧
  decodeWord 0xF7FF = .bswp { plain true .indirect .indirect .indirect with guard := .cond .le } ∧
  decodeWord 0x0E26 = .rorc (plain true .direct .absent .direct) ∧
  decodeWord 0x0C5C = .subc (plain true .immediate .immediate .none)

/-- Bits 3:0 select the operation, as the table of R82 has it, with `asl` for both of its spellings. -/
def Obligations.OperationFieldSelectsInstruction : Prop :=
  ∀ w : Word, let f := decodeFormat w
    let op := w.extractLsb' 0 4
    (op = 0x0 → decodeWord w = .add f) ∧ (op = 0x4 → decodeWord w = .sub f) ∧
    (op = 0x8 → decodeWord w = .addc f) ∧ (op = 0xC → decodeWord w = .subc f) ∧
    (op = 0x1 → decodeWord w = .nor f) ∧ (op = 0x5 → decodeWord w = .and f) ∧
    (op = 0x9 → decodeWord w = .eor f) ∧ (op = 0xD → decodeWord w = .or f) ∧
    (op = 0x2 → decodeWord w = .ror f) ∧ (op = 0x6 → decodeWord w = .rorc f) ∧
    (op = 0xA → decodeWord w = .asr f) ∧ (op = 0xE → decodeWord w = .lsr f) ∧
    (op = 0x3 → decodeWord w = .rol f) ∧ (op = 0x7 → decodeWord w = .rolc f) ∧
    (op = 0xB → decodeWord w = .asl f ∧ Instr.opcode (.lsl f) = op) ∧ (op = 0xF → decodeWord w = .bswp f)

/-- `lsl` is `asl`: the same words and the same effect (R101, R177). -/
def Obligations.LslIsAsl : Prop :=
  ∀ (f : Format) (s : State), encode (.lsl f) = encode (.asl f) ∧ exec (.lsl f) s = exec (.asl f) s

/-- Words placed for the fetch are what the fetch reads: the instruction word, and the three words after it where the
operand words are read; the current PC cell is none of these (log entry 8). -/
def Obligations.PlacedWordIsFetched : Prop :=
  ∀ (s : State) (nbits w : Nat),
    let t := s.withFetchWord nbits w
    let a := fetchAddress t
    [memRead t a, memRead t (a + 1), memRead t (a + 2), memRead t (a + 3)] = tableWords nbits w ∧
      (fetch t).ir = (tableWords nbits w).headD 0 ∧
      pca t ≠ a ∧ pca t ≠ a + 1 ∧ pca t ≠ a + 2 ∧ pca t ≠ a + 3

/-- The fields of the instruction word, bit by bit, with the codes of the modes and conditions; the modifiers exist under
`BED = 1` alone (R81). -/
def Obligations.InstructionWordFields : Prop :=
  ∀ w : Word, let f := (decodeWord w).format
    f.x.mode.code = w.extractLsb' 4 2 ∧ f.y.code = w.extractLsb' 6 2 ∧ f.z.mode.code = w.extractLsb' 8 2 ∧
    (decodeWord w).opcode = w.extractLsb' 0 4 ∧ f.setFlags = w[10] ∧
    (w[11] = false → (∃ c, f.guard = .cond c ∧ c.code = w.extractLsb' 12 4) ∧
      f.x.sr = false ∧ f.x.io = false ∧ f.z.sr = false ∧ f.z.io = false) ∧
    (w[11] = true → f.guard = .tr ∧ f.x.sr = w[15] ∧ f.x.io = w[14] ∧ f.z.sr = w[13] ∧ f.z.io = w[12])

/-! ### Conditions, level, ALU inputs -/

/-- The condition functions, code by code as R113 writes them; that code `cc ^ 1` is the negation of code `cc`; that no code holds
always and none never; and that an instruction with `BED = 1` is always executed. -/
def Obligations.ConditionFunctions : Prop :=
  (∀ cc : BitVec 4, (∃ sr : Word, condHolds (decodeCond cc[3] cc[2] cc[1] cc[0]) sr = true) ∧
    ∃ sr : Word, condHolds (decodeCond cc[3] cc[2] cc[1] cc[0]) sr = false) ∧
  (∀ w sr : Word, w[11] = true → executes (decodeWord w).format.guard sr = true) ∧
  ∀ sr : Word,
    let C := flagC sr
    let Z := flagZ sr
    let N := flagN sr
    let V := flagV sr
    let cond : BitVec 4 → Bool := fun cc => condHolds (decodeCond cc[3] cc[2] cc[1] cc[0]) sr
    cond 0x0 = (Z || N) ∧ cond 0x1 = (!Z && !N) ∧ cond 0x2 = (!C && !Z) ∧ cond 0x3 = (C || Z) ∧
    cond 0x4 = !C ∧ cond 0x5 = C ∧ cond 0x6 = !Z ∧ cond 0x7 = Z ∧
    cond 0x8 = !V ∧ cond 0x9 = V ∧ cond 0xA = !N ∧ cond 0xB = N ∧
    cond 0xC = (N == V) ∧ cond 0xD = (N != V) ∧ cond 0xE = ((N == V) && !Z) ∧ cond 0xF = (Z || (N != V)) ∧
    ∀ cc : BitVec 4, cond (cc ^^^ 1) = !cond cc

/-- The level of a status word: the highest `n` with `i_n = sr[8 + n] = 0`, and 0 if all are 1; its number is the address of the
program counter cell; `ie` plays no part (R25). -/
def Obligations.LevelIsHighestClearBit : Prop :=
  ∀ sr : Word,
    (sr[13] = false → level sr = 5) ∧
    (sr[13] = true → sr[12] = false → level sr = 4) ∧
    (sr[13] = true → sr[12] = true → sr[11] = false → level sr = 3) ∧
    (sr[13] = true → sr[12] = true → sr[11] = true → sr[10] = false → level sr = 2) ∧
    (sr[13] = true → sr[12] = true → sr[11] = true → sr[10] = true → sr[9] = false → level sr = 1) ∧
    (sr[13] = true → sr[12] = true → sr[11] = true → sr[10] = true → sr[9] = true → level sr = 0) ∧
    pcCell sr = BitVec.ofNat 16 (level sr) ∧ level (sr ^^^ 0x0100) = level sr

/-- The ALU's inputs are what the blocks XMUX and YGATE put out under the select functions f2, f3 and f4 (R117, R212, R222,
R223). -/
def Obligations.AluInputsAreXmuxAndYgate : Prop :=
  ∀ (w : Word) (s : State),
    xInput (decodeFormat w) s = Sequencer.xmux (Sequencer.f3 w) (Sequencer.f4 w) s.sr s.x ∧
    yInput (decodeFormat w) s = Sequencer.ygate (Sequencer.f2 w) s.y

/-- The operands and the address of the result in every form, from memory as it is when the instruction begins, the PC cell
as it has been stepped by then. x: 1 if absent, the operand word, the word at that address, the word where the pointer
there points; under `@` the last of these reads is the platform's answer, and `@` on an immediate or absent x has no
effect; under `&` bits 13:8 and 3:0 are those of `sr`, and an absent x gives those bits alone. y: 0 if absent, else as
for x, always from memory. The result goes where the address in its operand word, or the pointer there, says (R83, R84,
R85, R94, R115, R116, R117, R120, R200; the 15-bit address is the spec's decision D13, the form of the answer D14, log
entries 19, 2, and `&` on an I/O value log entry 21). -/
def Obligations.OperandsByMode : Prop :=
  ∀ (i : Instr) (s : State), let f := i.format
    (xsrEff f = false → xv f s = xOperand f s) ∧
    (xsrEff f = true → f.x.mode = .absent → xv f s = s.sr &&& 0x3F0F) ∧
    (xsrEff f = true → f.x.mode ≠ .absent → xv f s = (xOperand f s &&& 0xC0F0) ||| (s.sr &&& 0x3F0F)) ∧
    (f.x.mode = .direct ∨ f.x.mode = .indirect →
      xAddress f s = lastRead s (s.y + 2) (wordsRead f.x.mode - 1) (s.y + 1)) ∧
    yv f s = (if f.y = .absent then 0
      else lastRead s (yWordAddress f s + (if f.z.mode = .same then 0 else 1)) (wordsRead f.y) (yWordAddress f s)) ∧
    ∀ n : Nat, destination f = .store n →
      targetOf i s = lastRead s (s.y + BitVec.ofNat 16 f.length) n (resultWordAddress f s)

/-- An operand that is the current PC cell itself, addressed directly in memory, is the address after the words the hardware
has stepped over by then: past the x operand word for x, its bits 13:8 and 3:0 replaced under `&`; past the y operand
word for y, or at it under a result `=` (R193, R67, R117). -/
def Obligations.OwnPcCellAsOperand : Prop :=
  ∀ (f : Format) (s : State),
    (f.x.mode = .direct → xioEff f = false → s.y + 1 ≠ pca s → memRead s (s.y + 1) = pca s →
      xv f s = if xsrEff f then ((s.y + 2) &&& 0xC0F0) ||| (s.sr &&& 0x3F0F) else s.y + 2) ∧
    (f.y = .direct → yWordAddress f s ≠ pca s → memRead s (yWordAddress f s) = pca s →
      yv f s = yWordAddress f s + (if f.z.mode = .same then 0 else 1))

/-! ### What the operations compute -/

/-- add, sub, addc, subc: result, carry or borrow, and signed overflow, in every form (R150 to R154; the borrow sense of C
is D2, the overflow is from general knowledge, D3). -/
def Obligations.ArithmeticResults : Prop :=
  ∀ (f : Format) (s : State),
    let x := xv f s
    let y := yv f s
    let c := flagC s.sr
    Computes (.add f) s (· = x + y) (decide (2 ^ 16 ≤ x.toNat + y.toNat)) (addOverflow x y false) ∧
    Computes (.sub f) s (· = y - x) (decide (y.toNat < x.toNat)) (subOverflow x y false) ∧
    Computes (.addc f) s (· = x + y + bit c) (decide (2 ^ 16 ≤ x.toNat + y.toNat + c.toNat)) (addOverflow x y c) ∧
    Computes (.subc f) s (· = y - x - bit c) (decide (y.toNat < x.toNat + c.toNat)) (subOverflow x y c)

/-- nor, and, eor, or: bit by bit, with C cleared and V open, in every form (R160 to R164). -/
def Obligations.LogicResults : Prop :=
  ∀ (f : Format) (s : State),
    let x := xv f s
    let y := yv f s
    let c := flagC s.sr
    Computes (.nor f) s (fun z => ∀ (k : Nat) (h : k < 16), z[k] = !(x[k] || y[k])) false
      (undefinedV s (addOverflow x y false)) ∧
    Computes (.and f) s (fun z => ∀ (k : Nat) (h : k < 16), z[k] = (x[k] && y[k])) false
      (undefinedV s (subOverflow x y false)) ∧
    Computes (.eor f) s (fun z => ∀ (k : Nat) (h : k < 16), z[k] = (x[k] != y[k])) false
      (undefinedV s (addOverflow x y c)) ∧
    Computes (.or f) s (fun z => ∀ (k : Nat) (h : k < 16), z[k] = (x[k] || y[k])) false
      (undefinedV s (subOverflow x y c))

/-- ror, rorc, asr, lsr: the x operand one place to the right, C the bit shifted out, V open, in every form (R170 to R174). -/
def Obligations.RightShiftResults : Prop :=
  ∀ (f : Format) (s : State),
    let x := xv f s
    let y := yv f s
    let c := flagC s.sr
    Computes (.ror f) s (IsRightShift x x[0]) x[0] (undefinedV s (addOverflow x y false)) ∧
    Computes (.rorc f) s (IsRightShift x c) x[0] (undefinedV s (subOverflow x y false)) ∧
    Computes (.asr f) s (IsRightShift x x[15]) x[0] (undefinedV s (addOverflow x y c)) ∧
    Computes (.lsr f) s (IsRightShift x false) x[0] (undefinedV s (subOverflow x y c))

/-- rol, rolc, asl (and lsl): the x operand one place to the left, C the bit shifted out; bswp: the high byte of x below
the low byte of y, C bit 15 of x; V open, in every form (R170, R175 to R178). -/
def Obligations.LeftShiftAndSwapResults : Prop :=
  ∀ (f : Format) (s : State),
    let x := xv f s
    let y := yv f s
    let c := flagC s.sr
    Computes (.rol f) s (IsLeftShift x x[15]) x[15] (undefinedV s (addOverflow x y false)) ∧
    Computes (.rolc f) s (IsLeftShift x c) x[15] (undefinedV s (subOverflow x y false)) ∧
    Computes (.asl f) s (IsLeftShift x false) x[15] (undefinedV s (addOverflow x y c)) ∧
    Computes (.lsl f) s (IsLeftShift x false) x[15] (undefinedV s (addOverflow x y c)) ∧
    Computes (.bswp f) s (fun z => ∀ (k : Nat) (h : k < 8), z[k] = x[k + 8] ∧ z[k + 8] = y[k]) x[15]
      (undefinedV s (subOverflow x y c))

/-- The ALU block's function table agrees with the descriptions of the sixteen operations: result, carry, and the `VF`
column, which is V where the description defines it (R225 against R150 to R178). -/
def Obligations.AluBlockAgreesWithDescriptions : Prop :=
  ∀ (x y : Word) (c : Bool),
    let agrees : BitVec 4 → AluOut → Prop := fun op o =>
      Sequencer.aluBlock op x y c = (o.z, o.c) ∧
        o.v = if Sequencer.definesV op then .defined (Sequencer.aluBlockV op x y c)
          else .undefined (Sequencer.aluBlockV op x y c)
    agrees 0x0 (aluAdd x y c) ∧ agrees 0x4 (aluSub x y c) ∧ agrees 0x8 (aluAddc x y c) ∧ agrees 0xC (aluSubc x y c) ∧
    agrees 0x1 (aluNor x y c) ∧ agrees 0x5 (aluAnd x y c) ∧ agrees 0x9 (aluEor x y c) ∧ agrees 0xD (aluOr x y c) ∧
    agrees 0x2 (aluRor x y c) ∧ agrees 0x6 (aluRorc x y c) ∧ agrees 0xA (aluAsr x y c) ∧ agrees 0xE (aluLsr x y c) ∧
    agrees 0x3 (aluRol x y c) ∧ agrees 0x7 (aluRolc x y c) ∧ agrees 0xB (aluAsl x y c) ∧ agrees 0xF (aluBswp x y c)

/-! ### Frames: what every instruction changes and what it leaves -/

/-- Memory: no word changes but the current PC cell and, for an instruction of class S that is executed and does not store
to the I/O space, the word at the address it computes (R119 to R124). -/
def Obligations.MemoryFrame : Prop :=
  ∀ (i : Instr) (s t : State) (a : Word), exec i s = .next t → a ≠ pca s →
    (stores i s = true → zioEff i.format = false → a ≠ targetOf i s) → memRead t a = memRead s a

/-- Where the result, which X holds, goes: for class P to the current PC cell; for class S to its address in RAM, or to the
I/O space as the last access of the instruction; a ROM address keeps its word (R119, R120, R60; the ROM is the spec's
decision D12, the I/O store D13 and D17, log entries 18, 19, 21). -/
def Obligations.ResultLands : Prop :=
  ∀ (i : Instr) (s : State), ∃ t, exec i s = .next t ∧
    (destination i.format = .pc → executes i.format.guard s.sr = true → memRead t (pca s) = t.x) ∧
    (stores i s = true → zioEff i.format = false → isRam (targetOf i s) = true → memRead t (targetOf i s) = t.x) ∧
    (stores i s = true → zioEff i.format = false → isRam (targetOf i s) = false →
      memRead t (targetOf i s) = memRead s (targetOf i s)) ∧
    (stores i s = true → zioEff i.format = true →
      t.ioTrace.getLast? = some (.write (ioAddr (targetOf i s)) t.x))

/-- The PC cell after an instruction holds the address of the next one in memory, unless the result went there: class P,
or a store that hits the cell (R125, R90; the wrap-around of R30 is the spec's decision D19, log entry 23). Y held the
instruction's address. -/
def Obligations.PcCellAfterInstruction : Prop :=
  ∀ (i : Instr) (s : State), ∃ t, exec i s = .next t ∧
    memRead t (pca s) =
      if (destination i.format = .pc ∧ executes i.format.guard s.sr = true) ∨
          (stores i s = true ∧ zioEff i.format = false ∧ targetOf i s = pca s)
      then t.x
      else s.y + BitVec.ofNat 16 i.format.length

/-- A conditional instruction whose condition fails only steps the PC over its words: nothing is stored, no flag and no
other bit of `sr` changes, the I/O space is not touched, and a recorded request stays in the latch (R123, R255; the latch is
the spec's decision D7 and D10, log entries 13, 14). -/
def Obligations.NotExecutedOnlyStepsPc : Prop :=
  ∀ (i : Instr) (s : State), executes i.format.guard s.sr = false → ∃ t, exec i s = .next t ∧
    t.sr = s.sr ∧ t.ioTrace = s.ioTrace ∧ t.latch = recorded s ∧
    memRead t (pca s) = s.y + BitVec.ofNat 16 i.format.length ∧
    ∀ a : Word, a ≠ pca s → memRead t a = memRead s a

/-- The four flags change only in an executed instruction with `sf`; with `&` on its result they are the result's bits 3:0
(R23, R118). -/
def Obligations.FlagsChangeOnlyUnderSetFlags : Prop :=
  ∀ (i : Instr) (s : State), ∃ t, exec i s = .next t ∧
    (executes i.format.guard s.sr = false ∨ i.format.setFlags = false →
      ∀ (k : Nat) (h : k < 4), t.sr[k] = s.sr[k]) ∧
    (executes i.format.guard s.sr = true → i.format.setFlags = true → zsrEff i.format = true →
      ∀ (k : Nat) (h : k < 4), t.sr[k] = t.x[k])

/-- The other bits of `sr`: `ie` and `i1..i5` take bits 13:8 of the result in an executed instruction with `&` on a stored
result; then, in an executed instruction, every recorded request clears its level bit; the six missing places stay
(R121, R256, R265; the order is the spec's decision D5 and D11, log entries 17, 20). -/
def Obligations.UpperStatusBitsAfterInstruction : Prop :=
  ∀ (i : Instr) (s : State), ∃ t, exec i s = .next t ∧
    let run := executes i.format.guard s.sr
    let written : Nat → Bool := fun k =>
      if stores i s && zsrEff i.format then t.x.getLsbD k else s.sr.getLsbD k
    flagIe t.sr = written 8 ∧
    (∀ n : Nat, 1 ≤ n → n ≤ 5 → t.sr.getLsbD (8 + n) = (written (8 + n) && !(run && (recorded s).getLsbD (n - 1)))) ∧
    (∀ k : Nat, k ∈ [4, 5, 6, 7, 14, 15] → t.sr.getLsbD k = s.sr.getLsbD k)

/-- What an instruction does to the latch and to the internal and the model's own state: the latch empties when it is
executed and keeps what was recorded when it is not; the instruction register and `V_LOGIC_MODE` stay; one set of
request lines is used up, and an answer of the platform only by an I/O read (R122, R253, R255, R256; the latch is the
spec's decision D7, D10, D11, the model's own fields are log entries 1 to 3). -/
def Obligations.LatchAndInternalStateAfterInstruction : Prop :=
  ∀ (i : Instr) (s : State), ∃ t, exec i s = .next t ∧
    t.latch = (if executes i.format.guard s.sr then 0 else recorded s) ∧
    t.ir = s.ir ∧ t.vMode = s.vMode ∧ t.index = s.index + 1 ∧ t.irqIn = s.irqIn.tail ∧
    t.ioIn = (if readsIo i.format then s.ioIn.tail else s.ioIn)

/-- The I/O space is read once at most, by the x operand under `@`, and written once at most, by the store under `@`, in
that order, with 15-bit addresses (R51, R52, R200, R201; the width is the spec's decision D13, log entry 19). -/
def Obligations.IoAccessesOfInstruction : Prop :=
  ∀ (i : Instr) (s : State), ∃ t, exec i s = .next t ∧
    t.ioTrace = s.ioTrace ++
      (if readsIo i.format then
        [.read (ioAddr (xAddress i.format s)) (ioAnswer s (ioAddr (xAddress i.format s)))] else []) ++
      (if stores i s && zioEff i.format then [.write (ioAddr (targetOf i s)) t.x] else [])

/-! ### Interrupts -/

/-- When requests clear level bits, the level becomes the highest of the old level and the requests: a higher request takes
over, a lower one or the same changes nothing (R257, R258; the spec's decision D8, log entry 15). -/
def Obligations.HighestRequestDecidesLevel : Prop :=
  ∀ (l : Lines) (sr : Word), level (clearLevels l sr) = max (level sr) (highest l)

/-- Interrupt entry: after an executed instruction that does not write the upper half of `sr`, with requests recorded of
which the highest is above the level, the machine is at that level, `ie` is as before, the latch is empty, and the next
instruction comes from that level's PC cell; if it stores nothing, the interrupted level's cell holds the address where
that level will go on (R256, R259, R265; the recording is the spec's decision D7, that `ie` stays D9, log entries 14, 16). -/
def Obligations.InterruptEntry : Prop :=
  ∀ (i : Instr) (s : State), executes i.format.guard s.sr = true → zsrEff i.format = false →
    level s.sr < highest (recorded s) → ∃ t, exec i s = .next t ∧
      level t.sr = highest (recorded s) ∧ flagIe t.sr = flagIe s.sr ∧ t.latch = 0 ∧
      fetchAddress t = memRead t (BitVec.ofNat 16 (highest (recorded s))) ∧
      (destination i.format = .none → memRead t (pca s) = s.y + BitVec.ofNat 16 i.format.length)

/-- The return `or tr hf &-,#m,&dst` with `m = 1 << (8 + n)` sets `i_n` and leaves every other bit of `sr`, if no request
is recorded; the operand word is not the PC cell (R197, R261). -/
def Obligations.ReturnSetsLevelBit : Prop :=
  ∀ (s : State) (n : Nat), 1 ≤ n → n ≤ 5 → recorded s = 0 → s.y + 1 ≠ pca s →
    memRead s (s.y + 1) = (1 : Word) <<< (8 + n) →
    ∃ t, exec (.or { plain false .absent .immediate .direct with
        x := { sr := true, io := false, mode := .absent }, z := { sr := true, io := false, mode := .direct } }) s = .next t ∧
      ∀ k : Nat, t.sr.getLsbD k = (s.sr.getLsbD k || decide (k = 8 + n))

/-- Entering a level by software: `and tr hf &-,#m,&dst` with `m` all ones but bit `8 + n` clears `i_n` and leaves every other bit
of `sr`, if no request is recorded; from a lower level, level `n` is current from the next instruction on, which comes
from its PC cell. The operand word is not the current PC cell (R199, R121, R25; the order is the spec's decision D5,
log entry 20). -/
def Obligations.SoftwareEntersLevel : Prop :=
  ∀ (s : State) (n : Nat), 1 ≤ n → n ≤ 5 → recorded s = 0 → s.y + 1 ≠ pca s →
    memRead s (s.y + 1) = ~~~((1 : Word) <<< (8 + n)) →
    ∃ t, exec (.and { plain false .absent .immediate .direct with
        x := { sr := true, io := false, mode := .absent }, z := { sr := true, io := false, mode := .direct } }) s = .next t ∧
      (∀ k : Nat, t.sr.getLsbD k = (s.sr.getLsbD k && !decide (k = 8 + n))) ∧
      (level s.sr < n → level t.sr = n ∧ fetchAddress t = memRead t (BitVec.ofNat 16 n))

/-! ### Forms -/

/-- `add cond hf #label,-,=`: if executed, the current level's PC cell holds the label, and with no request recorded the next
instruction comes from there; if not, the cell holds the address after the two words (R190). The operand word is not
the PC cell itself. -/
def Obligations.JumpWritesCurrentPc : Prop :=
  ∀ (s : State) (g : Guard), s.y + 1 ≠ pca s →
    ∃ t, exec (.add { plain false .immediate .absent .same with guard := g }) s = .next t ∧
      memRead t (pca s) = (if executes g s.sr then memRead s (s.y + 1) else s.y + 2) ∧
      (executes g s.sr = true → recorded s = 0 → fetchAddress t = memRead s (s.y + 1))

/-- `sub tr sf -,#n,=`: the immediate word inside the instruction becomes one less where it lies in RAM and keeps its value in
ROM (D12, log entry 18); Z says whether the count has reached 0 (R65, R120, R288). The operand word is not the PC cell itself. -/
def Obligations.ImmediateIsOverwrittenInRam : Prop :=
  ∀ s : State, s.y + 1 ≠ pca s →
    ∃ t, exec (.sub (plain true .absent .immediate .same)) s = .next t ∧
      memRead t (s.y + 1) =
        (if isRam (s.y + 1) then memRead s (s.y + 1) - 1 else memRead s (s.y + 1)) ∧
      flagZ t.sr = decide (memRead s (s.y + 1) - 1 = 0)

/-- `or tr hf &-,-,dst` stores the ten bits of `sr` in place, zeros elsewhere, at a destination in RAM (R195). -/
def Obligations.StatusRegisterIsStored : Prop :=
  ∀ s : State,
    let i : Instr := .or { plain false .absent .absent .direct with x := { sr := true, io := false, mode := .absent } }
    isRam (targetOf i s) = true → ∃ t, exec i s = .next t ∧ memRead t (targetOf i s) = s.sr &&& 0x3F0F

/-- An instruction that leaves the sequencer at P1 has Y hold exactly what phase 0 would read from the PC cell, so that
skipping phase 0 shows in nothing but the number of phases (R293). -/
def Obligations.SkippedPhaseZeroIsInvisible : Prop :=
  ∀ (i : Instr) (s : State), ∃ t, exec i s = .next t ∧
    (t.phase = .p1 → fetchAddress t = fetchAddress { t with phase := .p0 }) ∧
    (t.phase = .p1 ↔ (executes i.format.guard s.sr = false ∧ isStore i.format = true))

/-- The jump to itself `add tr hf #a,-,=` at `a`, with nothing pending, and with interrupts disabled or no request line ever seen
active, repeats: the run has ended, `sr` and every word of memory stay, and it has ended still (R205; the spec's
convention D18, log entry 22). The operand word is not the PC cell. -/
def Obligations.SelfJumpRepeats : Prop :=
  ∀ s : State, s.phase = .p0 → flagIe s.sr = false ∨ noRequestEver s → s.latch = 0 →
    nextInstr s = .add (plain false .immediate .absent .same) →
    fetchAddress s + 1 ≠ pca s → memRead s (fetchAddress s + 1) = fetchAddress s →
    runEnded s ∧ ∃ t, step s = .next t ∧ t.sr = s.sr ∧ t.latch = 0 ∧ (∀ a : Word, memRead t a = memRead s a) ∧
      t.phase = .p0 ∧ runEnded t

/-- Once a run has ended, by any jump of class P to itself that holds the flags and reads no I/O, every step repeats: no change
to `sr` or to any word of memory, no access to the I/O space, and the run has ended still. A jump with `sf` writes the
flags once more, and what an I/O location answers may change (R205; the spec's convention D18, log entry 22). -/
def Obligations.EndedRunStays : Prop :=
  ∀ s : State, runEnded s → s.phase = .p0 → (nextInstr s).format.setFlags = false → readsIo (nextInstr s).format = false →
    ∃ t, step s = .next t ∧ t.sr = s.sr ∧ t.latch = 0 ∧ (∀ a : Word, memRead t a = memRead s a) ∧
      t.ioTrace = s.ioTrace ∧ t.phase = .p0 ∧ nextInstr t = nextInstr s ∧ runEnded t

/-- An idle loop is no ended run: with interrupts enabled, a jump to itself at which a request is seen for a level above the
current one is left for that level (R205, R256; the recording is the spec's decision D7, log entry 14). -/
def Obligations.RequestLeavesIdleLoop : Prop :=
  ∀ s : State, flagIe s.sr = true → selfJumpNext s = true → level s.sr < highest (linesSeen s) →
    ¬ noRequestEver s ∧ ¬ runEnded s ∧ ∃ t, step s = .next t ∧ level t.sr = highest (linesSeen s) ∧
      fetchAddress t = memRead t (BitVec.ofNat 16 (highest (linesSeen s)))

/-! ### The sequencer -/

/-- The processor run phase by phase, from the transition table, the output equations and the function blocks, makes exactly
the step of the instruction-level rules (R210 to R226 against R110 to R122). -/
def Obligations.SequencerMakesTheStep : Prop :=
  ∀ s : State, step s = .next (Sequencer.runInstruction s).st

/-- The number of phases of an instruction is what R292 counts. -/
def Obligations.PhaseCountIsSequencers : Prop :=
  ∀ s : State, (Sequencer.runInstruction s).phases =
    phaseCount s.phase (executes (nextInstr s).format.guard s.sr) (nextInstr s).format

/-- No instruction has fewer than 3 phases or more than 18, phase 0 counted where it is not skipped (R292, R293). -/
def Obligations.PhaseCountBounds : Prop :=
  ∀ (p : StartPhase) (run : Bool) (f : Format), 3 ≤ phaseCount p run f ∧ phaseCount p run f ≤ 18

/-- The bus accesses of an instruction come in the order of R124, each in its phase, space and direction; those of the PC
phases are to the current PC cell, and the instruction word is read at the fetch address (R67, R124). -/
def Obligations.BusAccessesFollowTable : Prop :=
  ∀ s : State,
    (Sequencer.runInstruction s).accesses.map (fun a => (a.phase, a.io, a.write)) =
      accessTable s.phase (executes (nextInstr s).format.guard s.sr) (nextInstr s).format ∧
    ∀ a ∈ (Sequencer.runInstruction s).accesses,
      (pcPhase a.phase = true → a.address = pca s) ∧ (a.phase = .p1 → a.address = fetchAddress s)

/-- The output equations give what the control-signal table has, wherever the table is not "don't care" (R216 against R211). -/
def Obligations.OutputEquationsMatchTable : Prop :=
  ∀ (b : Word) (cc : Bool) (p : Sequencer.Phase),
    let row := Sequencer.controlTable b cc p
    let out := Sequencer.outputs b cc p
    (∀ v, row.eb = some v → out.eb = v) ∧ (∀ v, row.ey = some v → out.ey = v) ∧ (∀ v, row.ex = some v → out.ex = v) ∧
    (∀ v, row.gy = some v → out.gy = v) ∧ (∀ v, row.gx1 = some v → out.gx1 = v) ∧ (∀ v, row.gx0 = some v → out.gx0 = v) ∧
    (∀ v, row.ga = some v → out.ga = v) ∧ (∀ v, row.al4 = some v → out.al4 = v) ∧ (∀ v, row.al = some v → out.al = v) ∧
    out.io = row.io ∧ out.mem = row.mem ∧ out.rw = row.rw

/-- The printed flip-flop inputs `D0`, `D1`, `D2` are 1 exactly when the next phase is P0, P1, P2; `D3` is 1 in
phase 2, after which `R3` comes on unless the next phase is P3 (R217 against R213). -/
def Obligations.PrintedFlipFlopInputs : Prop :=
  ∀ (b : Word) (cc : Bool) (p : Sequencer.Phase),
    Sequencer.d0 b p = decide (Sequencer.nextPhase b cc p = .p0) ∧
    Sequencer.d1 cc p = decide (Sequencer.nextPhase b cc p = .p1) ∧
    Sequencer.d2 p = decide (Sequencer.nextPhase b cc p = .p2) ∧
    (Sequencer.d3 p = true ↔ p = .p2) ∧
    (Sequencer.r3 (Sequencer.nextPhase b cc .p2) = true ↔ Sequencer.nextPhase b cc .p2 ≠ .p3)
end

