-- ==== Sys2Proof/Laws/State.lean ====
section
/-! SUPPORT. One lemma per field per named update of the state, each true by rfl, so that no proof unfolds a record
update. -/

namespace Sys2Proof.Machine

@[simp] theorem memWrite_sr (s : State) (a v : Word) : (memWrite s a v).sr = s.sr := rfl
@[simp] theorem memWrite_x (s : State) (a v : Word) : (memWrite s a v).x = s.x := rfl
@[simp] theorem memWrite_y (s : State) (a v : Word) : (memWrite s a v).y = s.y := rfl
@[simp] theorem memWrite_ir (s : State) (a v : Word) : (memWrite s a v).ir = s.ir := rfl
@[simp] theorem memWrite_phase (s : State) (a v : Word) : (memWrite s a v).phase = s.phase := rfl
@[simp] theorem memWrite_latch (s : State) (a v : Word) : (memWrite s a v).latch = s.latch := rfl
@[simp] theorem memWrite_mem (s : State) (a v : Word) : (memWrite s a v).mem = if isRam a then s.mem.write a.toNat v else s.mem := rfl
@[simp] theorem memWrite_ioTrace (s : State) (a v : Word) : (memWrite s a v).ioTrace = s.ioTrace := rfl
@[simp] theorem memWrite_ioIn (s : State) (a v : Word) : (memWrite s a v).ioIn = s.ioIn := rfl
@[simp] theorem memWrite_irqIn (s : State) (a v : Word) : (memWrite s a v).irqIn = s.irqIn := rfl
@[simp] theorem memWrite_index (s : State) (a v : Word) : (memWrite s a v).index = s.index := rfl
@[simp] theorem memWrite_vMode (s : State) (a v : Word) : (memWrite s a v).vMode = s.vMode := rfl

@[simp] theorem loadPc_sr (s : State) : (loadPc s).sr = s.sr := rfl
@[simp] theorem loadPc_x (s : State) : (loadPc s).x = s.x := rfl
@[simp] theorem loadPc_y (s : State) : (loadPc s).y = memRead s (pca s) := rfl
@[simp] theorem loadPc_ir (s : State) : (loadPc s).ir = s.ir := rfl
@[simp] theorem loadPc_phase (s : State) : (loadPc s).phase = s.phase := rfl
@[simp] theorem loadPc_latch (s : State) : (loadPc s).latch = s.latch := rfl
@[simp] theorem loadPc_mem (s : State) : (loadPc s).mem = s.mem := rfl
@[simp] theorem loadPc_ioTrace (s : State) : (loadPc s).ioTrace = s.ioTrace := rfl
@[simp] theorem loadPc_ioIn (s : State) : (loadPc s).ioIn = s.ioIn := rfl
@[simp] theorem loadPc_irqIn (s : State) : (loadPc s).irqIn = s.irqIn := rfl
@[simp] theorem loadPc_index (s : State) : (loadPc s).index = s.index := rfl
@[simp] theorem loadPc_vMode (s : State) : (loadPc s).vMode = s.vMode := rfl

@[simp] theorem loadIr_sr (s : State) : (loadIr s).sr = s.sr := rfl
@[simp] theorem loadIr_x (s : State) : (loadIr s).x = s.x := rfl
@[simp] theorem loadIr_y (s : State) : (loadIr s).y = s.y := rfl
@[simp] theorem loadIr_ir (s : State) : (loadIr s).ir = memRead s s.y := rfl
@[simp] theorem loadIr_phase (s : State) : (loadIr s).phase = s.phase := rfl
@[simp] theorem loadIr_latch (s : State) : (loadIr s).latch = s.latch := rfl
@[simp] theorem loadIr_mem (s : State) : (loadIr s).mem = s.mem := rfl
@[simp] theorem loadIr_ioTrace (s : State) : (loadIr s).ioTrace = s.ioTrace := rfl
@[simp] theorem loadIr_ioIn (s : State) : (loadIr s).ioIn = s.ioIn := rfl
@[simp] theorem loadIr_irqIn (s : State) : (loadIr s).irqIn = s.irqIn := rfl
@[simp] theorem loadIr_index (s : State) : (loadIr s).index = s.index := rfl
@[simp] theorem loadIr_vMode (s : State) : (loadIr s).vMode = s.vMode := rfl

@[simp] theorem stepPc_sr (s : State) : (stepPc s).sr = s.sr := rfl
@[simp] theorem stepPc_x (s : State) : (stepPc s).x = s.x := rfl
@[simp] theorem stepPc_y (s : State) : (stepPc s).y = s.y := rfl
@[simp] theorem stepPc_ir (s : State) : (stepPc s).ir = s.ir := rfl
@[simp] theorem stepPc_phase (s : State) : (stepPc s).phase = s.phase := rfl
@[simp] theorem stepPc_latch (s : State) : (stepPc s).latch = s.latch := rfl
@[simp] theorem stepPc_mem (s : State) : (stepPc s).mem = (memWrite s (pca s) (s.y + 1)).mem := rfl
@[simp] theorem stepPc_ioTrace (s : State) : (stepPc s).ioTrace = s.ioTrace := rfl
@[simp] theorem stepPc_ioIn (s : State) : (stepPc s).ioIn = s.ioIn := rfl
@[simp] theorem stepPc_irqIn (s : State) : (stepPc s).irqIn = s.irqIn := rfl
@[simp] theorem stepPc_index (s : State) : (stepPc s).index = s.index := rfl
@[simp] theorem stepPc_vMode (s : State) : (stepPc s).vMode = s.vMode := rfl

@[simp] theorem stepPcAndY_sr (s : State) : (stepPcAndY s).sr = s.sr := rfl
@[simp] theorem stepPcAndY_x (s : State) : (stepPcAndY s).x = s.x := rfl
@[simp] theorem stepPcAndY_y (s : State) : (stepPcAndY s).y = s.y + 1 := rfl
@[simp] theorem stepPcAndY_ir (s : State) : (stepPcAndY s).ir = s.ir := rfl
@[simp] theorem stepPcAndY_phase (s : State) : (stepPcAndY s).phase = s.phase := rfl
@[simp] theorem stepPcAndY_latch (s : State) : (stepPcAndY s).latch = s.latch := rfl
@[simp] theorem stepPcAndY_mem (s : State) : (stepPcAndY s).mem = (stepPc s).mem := rfl
@[simp] theorem stepPcAndY_ioTrace (s : State) : (stepPcAndY s).ioTrace = s.ioTrace := rfl
@[simp] theorem stepPcAndY_ioIn (s : State) : (stepPcAndY s).ioIn = s.ioIn := rfl
@[simp] theorem stepPcAndY_irqIn (s : State) : (stepPcAndY s).irqIn = s.irqIn := rfl
@[simp] theorem stepPcAndY_index (s : State) : (stepPcAndY s).index = s.index := rfl
@[simp] theorem stepPcAndY_vMode (s : State) : (stepPcAndY s).vMode = s.vMode := rfl

@[simp] theorem followY_sr (s : State) : (followY s).sr = s.sr := rfl
@[simp] theorem followY_x (s : State) : (followY s).x = s.x := rfl
@[simp] theorem followY_y (s : State) : (followY s).y = memRead s s.y := rfl
@[simp] theorem followY_ir (s : State) : (followY s).ir = s.ir := rfl
@[simp] theorem followY_phase (s : State) : (followY s).phase = s.phase := rfl
@[simp] theorem followY_latch (s : State) : (followY s).latch = s.latch := rfl
@[simp] theorem followY_mem (s : State) : (followY s).mem = s.mem := rfl
@[simp] theorem followY_ioTrace (s : State) : (followY s).ioTrace = s.ioTrace := rfl
@[simp] theorem followY_ioIn (s : State) : (followY s).ioIn = s.ioIn := rfl
@[simp] theorem followY_irqIn (s : State) : (followY s).irqIn = s.irqIn := rfl
@[simp] theorem followY_index (s : State) : (followY s).index = s.index := rfl
@[simp] theorem followY_vMode (s : State) : (followY s).vMode = s.vMode := rfl

@[simp] theorem loadX_sr (s : State) : (loadX s).sr = s.sr := rfl
@[simp] theorem loadX_x (s : State) : (loadX s).x = memRead s s.y := rfl
@[simp] theorem loadX_y (s : State) : (loadX s).y = s.y := rfl
@[simp] theorem loadX_ir (s : State) : (loadX s).ir = s.ir := rfl
@[simp] theorem loadX_phase (s : State) : (loadX s).phase = s.phase := rfl
@[simp] theorem loadX_latch (s : State) : (loadX s).latch = s.latch := rfl
@[simp] theorem loadX_mem (s : State) : (loadX s).mem = s.mem := rfl
@[simp] theorem loadX_ioTrace (s : State) : (loadX s).ioTrace = s.ioTrace := rfl
@[simp] theorem loadX_ioIn (s : State) : (loadX s).ioIn = s.ioIn := rfl
@[simp] theorem loadX_irqIn (s : State) : (loadX s).irqIn = s.irqIn := rfl
@[simp] theorem loadX_index (s : State) : (loadX s).index = s.index := rfl
@[simp] theorem loadX_vMode (s : State) : (loadX s).vMode = s.vMode := rfl

@[simp] theorem loadXFromIo_sr (s : State) : (loadXFromIo s).sr = s.sr := rfl
@[simp] theorem loadXFromIo_x (s : State) : (loadXFromIo s).x = ioAnswer s (ioAddr s.y) := rfl
@[simp] theorem loadXFromIo_y (s : State) : (loadXFromIo s).y = s.y := rfl
@[simp] theorem loadXFromIo_ir (s : State) : (loadXFromIo s).ir = s.ir := rfl
@[simp] theorem loadXFromIo_phase (s : State) : (loadXFromIo s).phase = s.phase := rfl
@[simp] theorem loadXFromIo_latch (s : State) : (loadXFromIo s).latch = s.latch := rfl
@[simp] theorem loadXFromIo_mem (s : State) : (loadXFromIo s).mem = s.mem := rfl
@[simp] theorem loadXFromIo_ioTrace (s : State) : (loadXFromIo s).ioTrace = s.ioTrace ++ [.read (ioAddr s.y) (ioAnswer s (ioAddr s.y))] := rfl
@[simp] theorem loadXFromIo_ioIn (s : State) : (loadXFromIo s).ioIn = s.ioIn.tail := rfl
@[simp] theorem loadXFromIo_irqIn (s : State) : (loadXFromIo s).irqIn = s.irqIn := rfl
@[simp] theorem loadXFromIo_index (s : State) : (loadXFromIo s).index = s.index := rfl
@[simp] theorem loadXFromIo_vMode (s : State) : (loadXFromIo s).vMode = s.vMode := rfl

@[simp] theorem storeX_sr (s : State) : (storeX s).sr = s.sr := rfl
@[simp] theorem storeX_x (s : State) : (storeX s).x = s.x := rfl
@[simp] theorem storeX_y (s : State) : (storeX s).y = s.y := rfl
@[simp] theorem storeX_ir (s : State) : (storeX s).ir = s.ir := rfl
@[simp] theorem storeX_phase (s : State) : (storeX s).phase = s.phase := rfl
@[simp] theorem storeX_latch (s : State) : (storeX s).latch = s.latch := rfl
@[simp] theorem storeX_mem (s : State) : (storeX s).mem = (memWrite s s.y s.x).mem := rfl
@[simp] theorem storeX_ioTrace (s : State) : (storeX s).ioTrace = s.ioTrace := rfl
@[simp] theorem storeX_ioIn (s : State) : (storeX s).ioIn = s.ioIn := rfl
@[simp] theorem storeX_irqIn (s : State) : (storeX s).irqIn = s.irqIn := rfl
@[simp] theorem storeX_index (s : State) : (storeX s).index = s.index := rfl
@[simp] theorem storeX_vMode (s : State) : (storeX s).vMode = s.vMode := rfl

@[simp] theorem storeXToIo_sr (s : State) : (storeXToIo s).sr = s.sr := rfl
@[simp] theorem storeXToIo_x (s : State) : (storeXToIo s).x = s.x := rfl
@[simp] theorem storeXToIo_y (s : State) : (storeXToIo s).y = s.y := rfl
@[simp] theorem storeXToIo_ir (s : State) : (storeXToIo s).ir = s.ir := rfl
@[simp] theorem storeXToIo_phase (s : State) : (storeXToIo s).phase = s.phase := rfl
@[simp] theorem storeXToIo_latch (s : State) : (storeXToIo s).latch = s.latch := rfl
@[simp] theorem storeXToIo_mem (s : State) : (storeXToIo s).mem = s.mem := rfl
@[simp] theorem storeXToIo_ioTrace (s : State) : (storeXToIo s).ioTrace = s.ioTrace ++ [.write (ioAddr s.y) s.x] := rfl
@[simp] theorem storeXToIo_ioIn (s : State) : (storeXToIo s).ioIn = s.ioIn := rfl
@[simp] theorem storeXToIo_irqIn (s : State) : (storeXToIo s).irqIn = s.irqIn := rfl
@[simp] theorem storeXToIo_index (s : State) : (storeXToIo s).index = s.index := rfl
@[simp] theorem storeXToIo_vMode (s : State) : (storeXToIo s).vMode = s.vMode := rfl

@[simp] theorem sampleLines_sr (s : State) : (sampleLines s).sr = s.sr := rfl
@[simp] theorem sampleLines_x (s : State) : (sampleLines s).x = s.x := rfl
@[simp] theorem sampleLines_y (s : State) : (sampleLines s).y = s.y := rfl
@[simp] theorem sampleLines_ir (s : State) : (sampleLines s).ir = s.ir := rfl
@[simp] theorem sampleLines_phase (s : State) : (sampleLines s).phase = s.phase := rfl
@[simp] theorem sampleLines_latch (s : State) : (sampleLines s).latch = if flagIe s.sr then s.latch ||| linesSeen s else s.latch := rfl
@[simp] theorem sampleLines_mem (s : State) : (sampleLines s).mem = s.mem := rfl
@[simp] theorem sampleLines_ioTrace (s : State) : (sampleLines s).ioTrace = s.ioTrace := rfl
@[simp] theorem sampleLines_ioIn (s : State) : (sampleLines s).ioIn = s.ioIn := rfl
@[simp] theorem sampleLines_irqIn (s : State) : (sampleLines s).irqIn = s.irqIn.tail := rfl
@[simp] theorem sampleLines_index (s : State) : (sampleLines s).index = s.index := rfl
@[simp] theorem sampleLines_vMode (s : State) : (sampleLines s).vMode = s.vMode := rfl

@[simp] theorem takeInterrupts_sr (s : State) : (takeInterrupts s).sr = clearLevels s.latch s.sr := rfl
@[simp] theorem takeInterrupts_x (s : State) : (takeInterrupts s).x = s.x := rfl
@[simp] theorem takeInterrupts_y (s : State) : (takeInterrupts s).y = s.y := rfl
@[simp] theorem takeInterrupts_ir (s : State) : (takeInterrupts s).ir = s.ir := rfl
@[simp] theorem takeInterrupts_phase (s : State) : (takeInterrupts s).phase = s.phase := rfl
@[simp] theorem takeInterrupts_latch (s : State) : (takeInterrupts s).latch = 0 := rfl
@[simp] theorem takeInterrupts_mem (s : State) : (takeInterrupts s).mem = s.mem := rfl
@[simp] theorem takeInterrupts_ioTrace (s : State) : (takeInterrupts s).ioTrace = s.ioTrace := rfl
@[simp] theorem takeInterrupts_ioIn (s : State) : (takeInterrupts s).ioIn = s.ioIn := rfl
@[simp] theorem takeInterrupts_irqIn (s : State) : (takeInterrupts s).irqIn = s.irqIn := rfl
@[simp] theorem takeInterrupts_index (s : State) : (takeInterrupts s).index = s.index := rfl
@[simp] theorem takeInterrupts_vMode (s : State) : (takeInterrupts s).vMode = s.vMode := rfl

@[simp] theorem writeSrHigh_sr (s : State) : (writeSrHigh s).sr = withHighFrom s.sr s.x := rfl
@[simp] theorem writeSrHigh_x (s : State) : (writeSrHigh s).x = s.x := rfl
@[simp] theorem writeSrHigh_y (s : State) : (writeSrHigh s).y = s.y := rfl
@[simp] theorem writeSrHigh_ir (s : State) : (writeSrHigh s).ir = s.ir := rfl
@[simp] theorem writeSrHigh_phase (s : State) : (writeSrHigh s).phase = s.phase := rfl
@[simp] theorem writeSrHigh_latch (s : State) : (writeSrHigh s).latch = s.latch := rfl
@[simp] theorem writeSrHigh_mem (s : State) : (writeSrHigh s).mem = s.mem := rfl
@[simp] theorem writeSrHigh_ioTrace (s : State) : (writeSrHigh s).ioTrace = s.ioTrace := rfl
@[simp] theorem writeSrHigh_ioIn (s : State) : (writeSrHigh s).ioIn = s.ioIn := rfl
@[simp] theorem writeSrHigh_irqIn (s : State) : (writeSrHigh s).irqIn = s.irqIn := rfl
@[simp] theorem writeSrHigh_index (s : State) : (writeSrHigh s).index = s.index := rfl
@[simp] theorem writeSrHigh_vMode (s : State) : (writeSrHigh s).vMode = s.vMode := rfl

@[simp] theorem resetPin_sr (s : State) : (resetPin s).sr = 0 := rfl
@[simp] theorem resetPin_x (s : State) : (resetPin s).x = 0 := rfl
@[simp] theorem resetPin_y (s : State) : (resetPin s).y = 0x8000 := rfl
@[simp] theorem resetPin_ir (s : State) : (resetPin s).ir = 0 := rfl
@[simp] theorem resetPin_phase (s : State) : (resetPin s).phase = .p1 := rfl
@[simp] theorem resetPin_latch (s : State) : (resetPin s).latch = 0 := rfl
@[simp] theorem resetPin_mem (s : State) : (resetPin s).mem = s.mem := rfl
@[simp] theorem resetPin_ioTrace (s : State) : (resetPin s).ioTrace = s.ioTrace := rfl
@[simp] theorem resetPin_ioIn (s : State) : (resetPin s).ioIn = s.ioIn := rfl
@[simp] theorem resetPin_irqIn (s : State) : (resetPin s).irqIn = s.irqIn := rfl
@[simp] theorem resetPin_index (s : State) : (resetPin s).index = s.index := rfl
@[simp] theorem resetPin_vMode (s : State) : (resetPin s).vMode = s.vMode := rfl

@[simp] theorem stepToResult_sr (s : State) : (stepToResult s).sr = s.sr := rfl
@[simp] theorem stepToResult_x (s : State) : (stepToResult s).x = s.x := rfl
@[simp] theorem stepToResult_y (s : State) : (stepToResult s).y = memRead s (pca s) := rfl
@[simp] theorem stepToResult_ir (s : State) : (stepToResult s).ir = s.ir := rfl
@[simp] theorem stepToResult_phase (s : State) : (stepToResult s).phase = s.phase := rfl
@[simp] theorem stepToResult_latch (s : State) : (stepToResult s).latch = s.latch := rfl
@[simp] theorem stepToResult_mem (s : State) : (stepToResult s).mem = (stepPc (loadPc s)).mem := rfl
@[simp] theorem stepToResult_ioTrace (s : State) : (stepToResult s).ioTrace = s.ioTrace := rfl
@[simp] theorem stepToResult_ioIn (s : State) : (stepToResult s).ioIn = s.ioIn := rfl
@[simp] theorem stepToResult_irqIn (s : State) : (stepToResult s).irqIn = s.irqIn := rfl
@[simp] theorem stepToResult_index (s : State) : (stepToResult s).index = s.index := rfl
@[simp] theorem stepToResult_vMode (s : State) : (stepToResult s).vMode = s.vMode := rfl

@[simp] theorem aluPhase_sr (alu : Word → Word → Bool → AluOut) (run : Bool) (f : Format) (s : State) : (aluPhase alu run f s).sr = srAfterAlu run f (aluResult alu f s) s := rfl
@[simp] theorem aluPhase_x (alu : Word → Word → Bool → AluOut) (run : Bool) (f : Format) (s : State) : (aluPhase alu run f s).x = (aluResult alu f s).z := rfl
@[simp] theorem aluPhase_y (alu : Word → Word → Bool → AluOut) (run : Bool) (f : Format) (s : State) : (aluPhase alu run f s).y = s.y := rfl
@[simp] theorem aluPhase_ir (alu : Word → Word → Bool → AluOut) (run : Bool) (f : Format) (s : State) : (aluPhase alu run f s).ir = s.ir := rfl
@[simp] theorem aluPhase_phase (alu : Word → Word → Bool → AluOut) (run : Bool) (f : Format) (s : State) : (aluPhase alu run f s).phase = s.phase := rfl
@[simp] theorem aluPhase_latch (alu : Word → Word → Bool → AluOut) (run : Bool) (f : Format) (s : State) : (aluPhase alu run f s).latch = s.latch := rfl
@[simp] theorem aluPhase_mem (alu : Word → Word → Bool → AluOut) (run : Bool) (f : Format) (s : State) : (aluPhase alu run f s).mem = s.mem := rfl
@[simp] theorem aluPhase_ioTrace (alu : Word → Word → Bool → AluOut) (run : Bool) (f : Format) (s : State) : (aluPhase alu run f s).ioTrace = s.ioTrace := rfl
@[simp] theorem aluPhase_ioIn (alu : Word → Word → Bool → AluOut) (run : Bool) (f : Format) (s : State) : (aluPhase alu run f s).ioIn = s.ioIn := rfl
@[simp] theorem aluPhase_irqIn (alu : Word → Word → Bool → AluOut) (run : Bool) (f : Format) (s : State) : (aluPhase alu run f s).irqIn = s.irqIn := rfl
@[simp] theorem aluPhase_index (alu : Word → Word → Bool → AluOut) (run : Bool) (f : Format) (s : State) : (aluPhase alu run f s).index = s.index := rfl
@[simp] theorem aluPhase_vMode (alu : Word → Word → Bool → AluOut) (run : Bool) (f : Format) (s : State) : (aluPhase alu run f s).vMode = s.vMode := rfl

/-! ### The reset state -/

@[simp] theorem resetWith_sr (m : Memory) (v : VLogicMode) : (State.resetWith m v).sr = 0 := rfl
@[simp] theorem resetWith_x (m : Memory) (v : VLogicMode) : (State.resetWith m v).x = 0 := rfl
@[simp] theorem resetWith_y (m : Memory) (v : VLogicMode) : (State.resetWith m v).y = 0x8000 := rfl
@[simp] theorem resetWith_ir (m : Memory) (v : VLogicMode) : (State.resetWith m v).ir = 0 := rfl
@[simp] theorem resetWith_phase (m : Memory) (v : VLogicMode) : (State.resetWith m v).phase = .p1 := rfl
@[simp] theorem resetWith_latch (m : Memory) (v : VLogicMode) : (State.resetWith m v).latch = 0 := rfl
@[simp] theorem resetWith_mem (m : Memory) (v : VLogicMode) : (State.resetWith m v).mem = m := rfl
@[simp] theorem resetWith_ioTrace (m : Memory) (v : VLogicMode) : (State.resetWith m v).ioTrace = [] := rfl
@[simp] theorem resetWith_ioIn (m : Memory) (v : VLogicMode) : (State.resetWith m v).ioIn = [] := rfl
@[simp] theorem resetWith_irqIn (m : Memory) (v : VLogicMode) : (State.resetWith m v).irqIn = [] := rfl
@[simp] theorem resetWith_index (m : Memory) (v : VLogicMode) : (State.resetWith m v).index = 0 := rfl
@[simp] theorem resetWith_vMode (m : Memory) (v : VLogicMode) : (State.resetWith m v).vMode = v := rfl

/-! ### What a read of memory and the PC cell depend on -/

/-- Two states with equal memories read alike. -/
theorem memRead_of_mem_eq (s t : State) (a : Word) (h : t.mem = s.mem) : memRead t a = memRead s a := by
  simp [memRead, h]

/-- The PC cell depends on `sr` alone. -/
theorem pca_of_sr_eq (s t : State) (h : t.sr = s.sr) : pca t = pca s := by
  simp [pca, h]

@[simp] theorem pca_memWrite (s : State) (a v : Word) : pca (memWrite s a v) = pca s := rfl
@[simp] theorem memRead_loadPc (s : State) (b : Word) : memRead (loadPc s) b = memRead s b := rfl
@[simp] theorem pca_loadPc (s : State) : pca (loadPc s) = pca s := rfl
@[simp] theorem memRead_loadIr (s : State) (b : Word) : memRead (loadIr s) b = memRead s b := rfl
@[simp] theorem pca_loadIr (s : State) : pca (loadIr s) = pca s := rfl
@[simp] theorem pca_stepPc (s : State) : pca (stepPc s) = pca s := rfl
@[simp] theorem pca_stepPcAndY (s : State) : pca (stepPcAndY s) = pca s := rfl
@[simp] theorem memRead_followY (s : State) (b : Word) : memRead (followY s) b = memRead s b := rfl
@[simp] theorem pca_followY (s : State) : pca (followY s) = pca s := rfl
@[simp] theorem memRead_loadX (s : State) (b : Word) : memRead (loadX s) b = memRead s b := rfl
@[simp] theorem pca_loadX (s : State) : pca (loadX s) = pca s := rfl
@[simp] theorem memRead_loadXFromIo (s : State) (b : Word) : memRead (loadXFromIo s) b = memRead s b := rfl
@[simp] theorem pca_loadXFromIo (s : State) : pca (loadXFromIo s) = pca s := rfl
@[simp] theorem pca_storeX (s : State) : pca (storeX s) = pca s := rfl
@[simp] theorem memRead_storeXToIo (s : State) (b : Word) : memRead (storeXToIo s) b = memRead s b := rfl
@[simp] theorem pca_storeXToIo (s : State) : pca (storeXToIo s) = pca s := rfl
@[simp] theorem memRead_sampleLines (s : State) (b : Word) : memRead (sampleLines s) b = memRead s b := rfl
@[simp] theorem pca_sampleLines (s : State) : pca (sampleLines s) = pca s := rfl
@[simp] theorem memRead_takeInterrupts (s : State) (b : Word) : memRead (takeInterrupts s) b = memRead s b := rfl
@[simp] theorem memRead_writeSrHigh (s : State) (b : Word) : memRead (writeSrHigh s) b = memRead s b := rfl
@[simp] theorem memRead_resetPin (s : State) (b : Word) : memRead (resetPin s) b = memRead s b := rfl
@[simp] theorem pca_stepToResult (s : State) : pca (stepToResult s) = pca s := rfl
@[simp] theorem memRead_aluPhase (alu : Word → Word → Bool → AluOut) (run : Bool) (f : Format) (s : State) (b : Word) : memRead (aluPhase alu run f s) b = memRead s b := rfl

end Sys2Proof.Machine
end

