-- ==== Sys2Proof/Laws/Memory.lean ====
section
/-! SUPPORT. Memory as data: what a read after a write gives, that every memory operation keeps the canonical form, and
that canonical memories which read alike are equal. -/

namespace Sys2Proof.Machine

theorem Memory.read_insert (m : Memory) (a b : Nat) (v : Word) :
    (m.insert a v).read b = if b = a then v else m.read b := by
  induction m with
  | nil =>
    by_cases h : a = b
    · simp [Memory.insert, Memory.read, h]
    · simp [Memory.insert, Memory.read, h, Ne.symm h]
  | cons e m ih =>
    obtain ⟨c, w⟩ := e
    by_cases h1 : a < c
    · by_cases h : a = b
      · simp [Memory.insert, Memory.read, h, h ▸ h1]
      · simp [Memory.insert, Memory.read, h1, h, Ne.symm h]
    · by_cases h2 : a = c
      · by_cases h : a = b
        · subst h2; subst h; simp [Memory.insert, Memory.read]
        · subst h2; simp [Memory.insert, Memory.read, h, Ne.symm h]
      · by_cases h : c = b
        · subst h; simp [Memory.insert, Memory.read, h1, h2, Ne.symm h2]
        · simp [Memory.insert, Memory.read, h1, h2, h, ih]

theorem Memory.read_filter (m : Memory) (a b : Nat) :
    Memory.read (m.filter (fun e => e.1 != a)) b = if b = a then unlisted else m.read b := by
  induction m with
  | nil => simp [Memory.read]
  | cons e m ih =>
    obtain ⟨c, w⟩ := e
    by_cases h1 : c = a
    · subst h1
      by_cases h : b = c
      · subst h; simp [ih]
      · simp [ih, Memory.read, h, Ne.symm h]
    · by_cases h : c = b
      · subst h; simp [h1, Memory.read]
      · simp [h1, Memory.read, h, ih]

/-- A read after a write: the value written at its address, and what was there before everywhere else. -/
theorem Memory.read_write (m : Memory) (a b : Nat) (v : Word) :
    (m.write a v).read b = if b = a then v else m.read b := by
  unfold Memory.write
  by_cases hv : v = unlisted
  · simp [hv, Memory.read_filter]
  · simp [hv, Memory.read_insert]

theorem Memory.wfFrom_mono {m : Memory} {low low' : Nat} (hl : low' ≤ low) (h : Memory.wfFrom low m = true) :
    Memory.wfFrom low' m = true := by
  cases m with
  | nil => rfl
  | cons e m =>
    simp only [Memory.wfFrom, Bool.and_eq_true, decide_eq_true_eq] at h ⊢
    exact ⟨⟨⟨le_trans hl h.1.1.1, h.1.1.2⟩, h.1.2⟩, h.2⟩

theorem Memory.wfFrom_insert {m : Memory} {low a : Nat} {v : Word} (hm : Memory.wfFrom low m = true) (hl : low ≤ a)
    (ha : a < 2 ^ 16) (hv : v ≠ unlisted) : Memory.wfFrom low (m.insert a v) = true := by
  induction m generalizing low with
  | nil => simp only [Memory.insert, Memory.wfFrom, Bool.and_eq_true, decide_eq_true_eq]; exact ⟨⟨⟨hl, ha⟩, hv⟩, trivial⟩
  | cons e m ih =>
    obtain ⟨c, w⟩ := e
    simp only [Memory.wfFrom, Bool.and_eq_true, decide_eq_true_eq] at hm
    unfold Memory.insert
    split
    · simp only [Memory.wfFrom, Bool.and_eq_true, decide_eq_true_eq]
      exact ⟨⟨⟨hl, ha⟩, hv⟩, ⟨⟨⟨by omega, hm.1.1.2⟩, hm.1.2⟩, hm.2⟩⟩
    · split
      · rename_i h2
        subst h2
        simp only [Memory.wfFrom, Bool.and_eq_true, decide_eq_true_eq]
        exact ⟨⟨⟨hl, ha⟩, hv⟩, hm.2⟩
      · simp only [Memory.wfFrom, Bool.and_eq_true, decide_eq_true_eq]
        exact ⟨hm.1, ih hm.2 (by omega)⟩

theorem Memory.wfFrom_filter {m : Memory} {low a : Nat} (hm : Memory.wfFrom low m = true) :
    Memory.wfFrom low (m.filter (fun e => e.1 != a)) = true := by
  induction m generalizing low with
  | nil => rfl
  | cons e m ih =>
    obtain ⟨c, w⟩ := e
    simp only [Memory.wfFrom, Bool.and_eq_true, decide_eq_true_eq] at hm
    by_cases h : c = a
    · simp only [List.filter, h, bne_self_eq_false]
      exact Memory.wfFrom_mono (by omega) (ih hm.2)
    · have : (c != a) = true := by simpa using h
      simp only [List.filter, this, Memory.wfFrom, Bool.and_eq_true, decide_eq_true_eq]
      exact ⟨hm.1, ih hm.2⟩

/-- A write at an address of the machine keeps the canonical form. -/
theorem Memory.wf_write {m : Memory} {a : Nat} {v : Word} (hm : m.wf = true) (ha : a < 2 ^ 16) :
    (m.write a v).wf = true := by
  unfold Memory.write
  split
  · exact Memory.wfFrom_filter hm
  · exact Memory.wfFrom_insert hm (Nat.zero_le a) ha ‹_›

/-- Loading words keeps the canonical form. -/
theorem Memory.wf_load {m : Memory} {a : Word} {ws : List Word} (hm : m.wf = true) : (m.load a ws).wf = true := by
  induction ws generalizing m a with
  | nil => exact hm
  | cons w ws ih => exact ih (Memory.wf_write hm a.isLt)

/-- Below the first address of a canonical memory every word reads as an unlisted one. -/
theorem Memory.read_of_lt {m : Memory} {low b : Nat} (hm : Memory.wfFrom low m = true) (hb : b < low) :
    m.read b = unlisted := by
  induction m generalizing low with
  | nil => rfl
  | cons e m ih =>
    obtain ⟨c, w⟩ := e
    simp only [Memory.wfFrom, Bool.and_eq_true, decide_eq_true_eq] at hm
    have hc : c ≠ b := by omega
    simp only [Memory.read, hc, if_false]
    exact ih hm.2 (by omega)

theorem Memory.wfFrom_ext {m m' : Memory} {low : Nat} (hm : Memory.wfFrom low m = true)
    (hm' : Memory.wfFrom low m' = true) (h : ∀ a, m.read a = m'.read a) : m = m' := by
  induction m generalizing low m' with
  | nil =>
    cases m' with
    | nil => rfl
    | cons e m' =>
      obtain ⟨c, w⟩ := e
      simp only [Memory.wfFrom, Bool.and_eq_true, decide_eq_true_eq] at hm'
      have := h c
      simp only [Memory.read, if_true] at this
      exact absurd this.symm hm'.1.2
  | cons e m ih =>
    obtain ⟨c, w⟩ := e
    simp only [Memory.wfFrom, Bool.and_eq_true, decide_eq_true_eq] at hm
    cases m' with
    | nil =>
      have := h c
      simp only [Memory.read, if_true] at this
      exact absurd this hm.1.2
    | cons e' m' =>
      obtain ⟨c', w'⟩ := e'
      simp only [Memory.wfFrom, Bool.and_eq_true, decide_eq_true_eq] at hm'
      have hcc : c = c' := by
        rcases Nat.lt_trichotomy c c' with hlt | heq | hlt
        · have h1 := h c
          have hne : c' ≠ c := by omega
          simp only [Memory.read, if_true, hne, if_false] at h1
          rw [Memory.read_of_lt hm'.2 (by omega)] at h1
          exact absurd h1 hm.1.2
        · exact heq
        · have h1 := h c'
          have hne : c ≠ c' := by omega
          simp only [Memory.read, if_true, hne, if_false] at h1
          rw [Memory.read_of_lt hm.2 (by omega)] at h1
          exact absurd h1.symm hm'.1.2
      subst hcc
      have hw : w = w' := by simpa [Memory.read] using h c
      subst hw
      congr 1
      refine ih hm.2 hm'.2 fun a => ?_
      by_cases ha : c = a
      · subst ha
        rw [Memory.read_of_lt hm.2 (Nat.lt_succ_self c), Memory.read_of_lt hm'.2 (Nat.lt_succ_self c)]
      · simpa [Memory.read, ha] using h a

/-- Canonical memories that read alike are equal. -/
theorem Memory.wf_ext {m m' : Memory} (hm : m.wf = true) (hm' : m'.wf = true) (h : ∀ a, m.read a = m'.read a) :
    m = m' := Memory.wfFrom_ext hm hm' h

/-- The memory after reset is canonical if the memory it was given is. -/
theorem wf_resetWith {m : Memory} (v : VLogicMode) (hm : m.wf = true) : (State.resetWith m v).mem.wf = true := hm

/-- The memory of the reset state is canonical. -/
theorem wf_reset : State.reset.mem.wf = true := rfl

/-! ### Memory as the machine reaches it -/

/-- Everything `MemWrite` can do: the word at a RAM address is the one written, every other word, and every word under
a ROM address, is as before. -/
theorem memRead_memWrite (s : State) (a b v : Word) :
    memRead (memWrite s a v) b = if b = a ∧ isRam a = true then v else memRead s b := by
  unfold memRead
  by_cases hr : isRam a = true
  · by_cases hb : b = a
    · simp [hr, hb, Memory.read_write]
    · have : b.toNat ≠ a.toNat := fun h => hb (BitVec.eq_of_toNat_eq h)
      simp [hr, hb, this, Memory.read_write]
  · simp [hr]

/-- `MemWrite` keeps the canonical form. -/
theorem wf_memWrite {s : State} {a v : Word} (h : s.mem.wf = true) : (memWrite s a v).mem.wf = true := by
  simp only [memWrite_mem]
  split
  · exact Memory.wf_write h a.isLt
  · exact h

/-- Every PC cell is one of the RAM words 0 to 5. -/
theorem level_le (sr : Word) : level sr ≤ 5 := by
  unfold level
  repeat' split
  all_goals omega

theorem pcCell_toNat (sr : Word) : (pcCell sr).toNat = level sr := by
  have := level_le sr
  simp only [pcCell, BitVec.toNat_ofNat]
  omega

theorem isRam_pcCell (sr : Word) : isRam (pcCell sr) = true := by
  have h := level_le sr
  generalize hn : level sr = n at h
  simp only [pcCell, hn]
  interval_cases n <;> rfl

@[simp] theorem isRam_pca (s : State) : isRam (pca s) = true := isRam_pcCell s.sr

/-- Stepping the PC writes the current PC cell and nothing else. -/
theorem memRead_stepPc (s : State) (b : Word) :
    memRead (stepPc s) b = if b = pca s then s.y + 1 else memRead s b := by
  simp [stepPc, memRead_memWrite]

theorem memRead_stepPcAndY (s : State) (b : Word) :
    memRead (stepPcAndY s) b = if b = pca s then s.y + 1 else memRead s b := memRead_stepPc s b

theorem memRead_storeX (s : State) (b : Word) :
    memRead (storeX s) b = if b = s.y ∧ isRam s.y = true then s.x else memRead s b := memRead_memWrite s s.y b s.x

theorem memRead_stepToResult (s : State) (b : Word) :
    memRead (stepToResult s) b = if b = pca s then memRead s (pca s) + 1 else memRead s b := by
  exact memRead_stepPc (loadPc s) b

end Sys2Proof.Machine
end

