-- ==== Sys2Proof/Laws/Operations.lean ====
section
/-! SUPPORT. For each shared operation of the execution sequence, once, everything it can do: which fields it leaves as
they were, and which word of memory it can change. -/

namespace Sys2Proof.Machine

/-- What reading operands leaves alone: all but X, Y, memory, and the I/O history with the answers it uses. -/
structure KeepsControl (s t : State) : Prop where
  sr : t.sr = s.sr
  ir : t.ir = s.ir
  phase : t.phase = s.phase
  latch : t.latch = s.latch
  irqIn : t.irqIn = s.irqIn
  index : t.index = s.index
  vMode : t.vMode = s.vMode

/-- Memory is changed in the current PC cell at most, and stays canonical. -/
structure ChangesPcOnly (s t : State) : Prop where
  read : ∀ b, b ≠ pca s → memRead t b = memRead s b
  wf : s.mem.wf = true → t.mem.wf = true

theorem KeepsControl.refl (s : State) : KeepsControl s s := ⟨rfl, rfl, rfl, rfl, rfl, rfl, rfl⟩

theorem KeepsControl.trans {s t u : State} (h : KeepsControl s t) (k : KeepsControl t u) : KeepsControl s u :=
  ⟨k.sr.trans h.sr, k.ir.trans h.ir, k.phase.trans h.phase, k.latch.trans h.latch, k.irqIn.trans h.irqIn,
    k.index.trans h.index, k.vMode.trans h.vMode⟩

theorem KeepsControl.pca {s t : State} (h : KeepsControl s t) : pca t = pca s := pca_of_sr_eq s t h.sr

theorem ChangesPcOnly.refl (s : State) : ChangesPcOnly s s := ⟨fun _ _ => rfl, id⟩

theorem ChangesPcOnly.trans {s t u : State} (h : ChangesPcOnly s t) (k : ChangesPcOnly t u)
    (hp : Machine.pca t = Machine.pca s) : ChangesPcOnly s u :=
  ⟨fun b hb => (k.read b (hp ▸ hb)).trans (h.read b hb), fun w => k.wf (h.wf w)⟩

theorem ChangesPcOnly.of_mem_eq {s t : State} (h : t.mem = s.mem) : ChangesPcOnly s t :=
  ⟨fun b _ => memRead_of_mem_eq s t b h, fun w => h ▸ w⟩

theorem stepPc_keeps (s : State) : KeepsControl s (stepPc s) := ⟨rfl, rfl, rfl, rfl, rfl, rfl, rfl⟩
theorem loadPc_keeps (s : State) : KeepsControl s (loadPc s) := ⟨rfl, rfl, rfl, rfl, rfl, rfl, rfl⟩
theorem followY_keeps (s : State) : KeepsControl s (followY s) := ⟨rfl, rfl, rfl, rfl, rfl, rfl, rfl⟩
theorem loadX_keeps (s : State) : KeepsControl s (loadX s) := ⟨rfl, rfl, rfl, rfl, rfl, rfl, rfl⟩
theorem loadXFromIo_keeps (s : State) : KeepsControl s (loadXFromIo s) := ⟨rfl, rfl, rfl, rfl, rfl, rfl, rfl⟩
theorem stepPcAndY_keeps (s : State) : KeepsControl s (stepPcAndY s) := ⟨rfl, rfl, rfl, rfl, rfl, rfl, rfl⟩

theorem stepPc_changes (s : State) : ChangesPcOnly s (stepPc s) :=
  ⟨fun b hb => by rw [memRead_stepPc, if_neg hb], fun w => wf_memWrite w⟩

theorem stepPcAndY_changes (s : State) : ChangesPcOnly s (stepPcAndY s) :=
  ⟨fun b hb => by rw [memRead_stepPcAndY, if_neg hb], fun w => wf_memWrite w⟩

theorem readAddressedX_keeps (f : Format) (s : State) : KeepsControl s (readAddressedX f s) := by
  unfold readAddressedX
  split
  · exact loadXFromIo_keeps s
  · exact loadX_keeps s

@[simp] theorem readAddressedX_mem (f : Format) (s : State) : (readAddressedX f s).mem = s.mem := by
  unfold readAddressedX
  split <;> rfl

@[simp] theorem readAddressedX_y (f : Format) (s : State) : (readAddressedX f s).y = s.y := by
  unfold readAddressedX
  split <;> rfl

/-- Reading the x operand leaves the control state alone. -/
theorem readX_keeps (f : Format) (s : State) : KeepsControl s (readX f s) := by
  unfold readX
  split
  · exact KeepsControl.refl s
  · exact (stepPc_keeps s).trans (loadX_keeps _)
  · exact ((stepPc_keeps s).trans (followY_keeps _)).trans (readAddressedX_keeps f _)
  · exact (((stepPc_keeps s).trans (followY_keeps _)).trans (followY_keeps _)).trans (readAddressedX_keeps f _)

/-- Reading the x operand changes no word of memory but the PC cell. -/
theorem readX_changes (f : Format) (s : State) : ChangesPcOnly s (readX f s) := by
  unfold readX
  split
  · exact ChangesPcOnly.refl s
  · exact (stepPc_changes s).trans (.of_mem_eq rfl) rfl
  · exact (stepPc_changes s).trans (.of_mem_eq (by simp)) rfl
  · exact (stepPc_changes s).trans (.of_mem_eq (by simp)) rfl

theorem reloadPc_keeps (f : Format) (s : State) : KeepsControl s (reloadPc f s) := by
  unfold reloadPc
  split
  · exact KeepsControl.refl s
  all_goals exact loadPc_keeps s

@[simp] theorem reloadPc_mem (f : Format) (s : State) : (reloadPc f s).mem = s.mem := by
  unfold reloadPc
  split <;> rfl

theorem stepPastY_keeps (f : Format) (s : State) : KeepsControl s (stepPastY f s) := by
  unfold stepPastY
  split
  · exact KeepsControl.refl s
  all_goals exact stepPc_keeps s

theorem stepPastY_changes (f : Format) (s : State) : ChangesPcOnly s (stepPastY f s) := by
  unfold stepPastY
  split
  · exact ChangesPcOnly.refl s
  all_goals exact stepPc_changes s

/-- Reading the y operand leaves the control state alone. -/
theorem readY_keeps (f : Format) (s : State) : KeepsControl s (readY f s) := by
  have h := (reloadPc_keeps f s).trans (stepPastY_keeps f _)
  unfold readY
  split
  · exact KeepsControl.refl s
  · exact h.trans (followY_keeps _)
  · exact (h.trans (followY_keeps _)).trans (followY_keeps _)
  · exact ((h.trans (followY_keeps _)).trans (followY_keeps _)).trans (followY_keeps _)

/-- Reading the y operand changes no word of memory but the PC cell. -/
theorem readY_changes (f : Format) (s : State) : ChangesPcOnly s (readY f s) := by
  have h : ChangesPcOnly s (stepPastY f (reloadPc f s)) :=
    (ChangesPcOnly.of_mem_eq (reloadPc_mem f s)).trans (stepPastY_changes f _) (reloadPc_keeps f s).pca
  have p : pca (stepPastY f (reloadPc f s)) = pca s := ((reloadPc_keeps f s).trans (stepPastY_keeps f _)).pca
  unfold readY
  split
  · exact ChangesPcOnly.refl s
  all_goals exact h.trans (.of_mem_eq rfl) p

/-- Reading the y operand touches neither X nor the I/O space. -/
theorem readY_io (f : Format) (s : State) :
    (readY f s).x = s.x ∧ (readY f s).ioTrace = s.ioTrace ∧ (readY f s).ioIn = s.ioIn := by
  have h : (stepPastY f (reloadPc f s)).x = s.x ∧ (stepPastY f (reloadPc f s)).ioTrace = s.ioTrace ∧
      (stepPastY f (reloadPc f s)).ioIn = s.ioIn := by
    unfold stepPastY reloadPc
    split <;> split <;> simp
  unfold readY
  split <;> simp [h]

/-- Everything phases 2 to 11 do to the control state: the request lines are sampled. -/
theorem operandState_keeps (f : Format) (s : State) : KeepsControl (sampleLines s) (operandState f s) :=
  ((stepPcAndY_keeps _).trans (readX_keeps f _)).trans (readY_keeps f _)

/-- Phases 2 to 11 change no word of memory but the PC cell. -/
theorem operandState_changes (f : Format) (s : State) : ChangesPcOnly s (operandState f s) := by
  have h := ((stepPcAndY_changes (sampleLines s)).trans (readX_changes f _) rfl).trans (readY_changes f _)
    ((stepPcAndY_keeps (sampleLines s)).trans (readX_keeps f _)).pca
  exact ⟨fun b hb => (h.read b hb).trans rfl, fun w => h.wf w⟩

theorem followAddress_keeps (n : Nat) (s : State) : KeepsControl s (followAddress n s) := by
  induction n generalizing s with
  | zero => exact KeepsControl.refl s
  | succ n ih => exact (followY_keeps s).trans (ih _)

/-- Phases 15 and 16 change Y alone. -/
theorem followAddress_data (n : Nat) (s : State) :
    (followAddress n s).mem = s.mem ∧ (followAddress n s).x = s.x ∧ (followAddress n s).ioTrace = s.ioTrace ∧
      (followAddress n s).ioIn = s.ioIn := by
  induction n generalizing s with
  | zero => exact ⟨rfl, rfl, rfl, rfl⟩
  | succ n ih => simpa [followAddress] using ih (followY s)

theorem storeResult_keeps (f : Format) (s : State) : KeepsControl s (storeResult f s) := by
  unfold storeResult
  split
  all_goals exact ⟨rfl, rfl, rfl, rfl, rfl, rfl, rfl⟩

@[simp] theorem storeResult_x (f : Format) (s : State) : (storeResult f s).x = s.x := by
  unfold storeResult
  split <;> rfl

/-- The meaning of every instruction: its ALU function in the common sequence. -/
def aluOf : Instr → Word → Word → Bool → AluOut
  | .add _ => aluAdd
  | .nor _ => aluNor
  | .ror _ => aluRor
  | .rol _ => aluRol
  | .sub _ => aluSub
  | .and _ => aluAnd
  | .rorc _ => aluRorc
  | .rolc _ => aluRolc
  | .addc _ => aluAddc
  | .eor _ => aluEor
  | .asr _ => aluAsr
  | .asl _ => aluAsl
  | .lsl _ => aluAsl
  | .subc _ => aluSubc
  | .or _ => aluOr
  | .lsr _ => aluLsr
  | .bswp _ => aluBswp

/-- Every instruction runs to a next state: its ALU function in the common sequence. -/
theorem exec_eq (i : Instr) (s : State) : exec i s = .next (execute (aluOf i) i.format s) := by
  cases i <;> rfl

/-- What is true of a state that an instruction leads to is read off the common sequence. -/
theorem exec_next {i : Instr} {s t : State} (h : exec i s = .next t) : t = execute (aluOf i) i.format s := by
  rw [exec_eq] at h
  exact (Host.Outcome.next.inj h).symm

@[simp] theorem finish_x (run : Bool) (f : Format) (s : State) : (finish run f s).x = s.x := by
  cases run <;> rfl
@[simp] theorem finish_y (run : Bool) (f : Format) (s : State) : (finish run f s).y = s.y := by
  cases run <;> rfl
@[simp] theorem finish_ir (run : Bool) (f : Format) (s : State) : (finish run f s).ir = s.ir := by
  cases run <;> rfl
@[simp] theorem finish_mem (run : Bool) (f : Format) (s : State) : (finish run f s).mem = s.mem := by
  cases run <;> rfl
@[simp] theorem finish_ioTrace (run : Bool) (f : Format) (s : State) : (finish run f s).ioTrace = s.ioTrace := by
  cases run <;> rfl
@[simp] theorem finish_ioIn (run : Bool) (f : Format) (s : State) : (finish run f s).ioIn = s.ioIn := by
  cases run <;> rfl
@[simp] theorem finish_irqIn (run : Bool) (f : Format) (s : State) : (finish run f s).irqIn = s.irqIn := by
  cases run <;> rfl
@[simp] theorem finish_vMode (run : Bool) (f : Format) (s : State) : (finish run f s).vMode = s.vMode := by
  cases run <;> rfl
@[simp] theorem finish_index (run : Bool) (f : Format) (s : State) : (finish run f s).index = s.index + 1 := by
  cases run <;> rfl
@[simp] theorem finish_phase (run : Bool) (f : Format) (s : State) : (finish run f s).phase = phaseAfter run f := by
  cases run <;> rfl
theorem finish_sr (run : Bool) (f : Format) (s : State) :
    (finish run f s).sr = if run then clearLevels s.latch s.sr else s.sr := by
  cases run <;> rfl
theorem finish_latch (run : Bool) (f : Format) (s : State) :
    (finish run f s).latch = if run then 0 else s.latch := by
  cases run <;> rfl

/-! ### The bits of the status register -/

theorem getElem_withFlags (sr : Word) (v n z c : Bool) (k : Nat) (hk : k < 16) :
    (withFlags sr v n z c)[k] =
      if k = 0 then c else if k = 1 then z else if k = 2 then n else if k = 3 then v else sr[k] := by
  unfold withFlags
  interval_cases k <;> simp [placeField]

theorem getElem_withFlagsFrom (sr z : Word) (k : Nat) (hk : k < 16) :
    (withFlagsFrom sr z)[k] = if k < 4 then z[k] else sr[k] := by
  unfold withFlagsFrom
  interval_cases k <;> simp

theorem getElem_withHighFrom (sr z : Word) (k : Nat) (hk : k < 16) :
    (withHighFrom sr z)[k] = if 8 ≤ k ∧ k < 14 then z[k] else sr[k] := by
  unfold withHighFrom
  interval_cases k <;> simp

theorem getElem_clearLevels (l : Lines) (sr : Word) (k : Nat) (hk : k < 16) :
    (clearLevels l sr)[k] = if h : 9 ≤ k ∧ k < 14 then sr[k] && !l[k - 9] else sr[k] := by
  unfold clearLevels
  interval_cases k <;> simp [placeField]

end Sys2Proof.Machine
end

