-- ==== Sys2Proof/Laws/Execute.lean ====
section
/-! SUPPORT. What one whole instruction does, field by field, read off the lemmas about its parts. -/

namespace Sys2Proof.Machine

/-! ### The level depends on bits 13:9 of `sr` alone -/

theorem level_congr {a b : Word} (h : ∀ (k : Nat) (_ : 9 ≤ k) (_ : k < 14), a[k] = b[k]) : level a = level b := by
  simp only [level, h 13 (by omega) (by omega), h 12 (by omega) (by omega), h 11 (by omega) (by omega),
    h 10 (by omega) (by omega), h 9 (by omega) (by omega)]

/-- Phase 12 changes no bit of `sr` above the flags. -/
theorem srAfterAlu_high (run : Bool) (f : Format) (o : AluOut) (s : State) (k : Nat) (h4 : 4 ≤ k) (h : k < 16) :
    (srAfterAlu run f o s)[k] = s.sr[k] := by
  unfold srAfterAlu
  split
  · split
    · rw [getElem_withFlagsFrom, if_neg (by omega)]
    · unfold withAluFlags
      rw [getElem_withFlags, if_neg (by omega), if_neg (by omega), if_neg (by omega), if_neg (by omega)]
  · rfl

/-- The PC cell is the same before and after phase 12. -/
@[simp] theorem pca_aluPhase (alu : Word → Word → Bool → AluOut) (run : Bool) (f : Format) (s : State) :
    pca (aluPhase alu run f s) = pca s := by
  simp only [pca, pcCell, aluPhase_sr]
  rw [level_congr fun k h9 h14 => srAfterAlu_high run f _ s k (by omega) (by omega)]

/-! ### The state in which the operands have been read -/

@[simp] theorem operandState_sr (f : Format) (s : State) : (operandState f s).sr = s.sr := (operandState_keeps f s).sr
@[simp] theorem operandState_ir (f : Format) (s : State) : (operandState f s).ir = s.ir := (operandState_keeps f s).ir
@[simp] theorem operandState_phase (f : Format) (s : State) : (operandState f s).phase = s.phase :=
  (operandState_keeps f s).phase
@[simp] theorem operandState_index (f : Format) (s : State) : (operandState f s).index = s.index :=
  (operandState_keeps f s).index
@[simp] theorem operandState_vMode (f : Format) (s : State) : (operandState f s).vMode = s.vMode :=
  (operandState_keeps f s).vMode
@[simp] theorem operandState_irqIn (f : Format) (s : State) : (operandState f s).irqIn = s.irqIn.tail :=
  (operandState_keeps f s).irqIn
@[simp] theorem operandState_latch (f : Format) (s : State) :
    (operandState f s).latch = if flagIe s.sr then s.latch ||| linesSeen s else s.latch := (operandState_keeps f s).latch
@[simp] theorem pca_operandState (f : Format) (s : State) : pca (operandState f s) = pca s :=
  pca_of_sr_eq s _ (operandState_sr f s)

/-! ### The program counter cell (R124, R125) -/

/-- The cell after the x operand: past the instruction word and the x operand word. -/
theorem memRead_readX_pca (f : Format) (s : State) (h : memRead s (pca s) = s.y) :
    memRead (readX f s) (pca s) = s.y + BitVec.ofNat 16 f.x.mode.words := by
  unfold readX
  split <;> rename_i hm <;> simp [memRead_stepPc, memRead_of_mem_eq (stepPc s), hm, Mode.words, h]

/-- Y where the y operand word is looked for: the value of the cell. -/
theorem reloadPc_y (f : Format) (s : State) (h : memRead s (pca s) = s.y) :
    (reloadPc f (readX f s)).y = memRead (readX f s) (pca s) := by
  have hp : pca (readX f s) = pca s := (readX_keeps f s).pca
  unfold reloadPc
  split
  · rename_i hm
    simp [readX, hm, h]
  all_goals simp [hp]

/-- The cell after the y operand: past its word as well, unless the result is `=`. -/
theorem memRead_readY_pca (f : Format) (s : State) (h : memRead s (pca s) = s.y) :
    memRead (readY f (readX f s)) (pca s) =
      s.y + BitVec.ofNat 16 f.x.mode.words + (if f.z.mode = .same then 0 else BitVec.ofNat 16 f.y.words) := by
  have hx := memRead_readX_pca f s h
  have hy := reloadPc_y f s h
  have hp : pca (reloadPc f (readX f s)) = pca s :=
    ((readX_keeps f s).trans (reloadPc_keeps f _)).pca
  have key : memRead (stepPastY f (reloadPc f (readX f s))) (pca s) =
      s.y + BitVec.ofNat 16 f.x.mode.words + (if f.z.mode = .same then 0 else 1) := by
    unfold stepPastY
    split <;> rename_i hm <;>
      simp [memRead_stepPc, hp, hy, hx, hm, memRead_of_mem_eq (readX f s) (reloadPc f (readX f s))]
  unfold readY
  split <;> rename_i hm
  · simp [hx, hm, Mode.words]
  all_goals simp [key, hm, Mode.words]

/-- The cell when the operands have been read, in an instruction whose address is in Y. -/
theorem memRead_operandState_pca (f : Format) (s : State) :
    memRead (operandState f s) (pca s) =
      s.y + 1 + BitVec.ofNat 16 f.x.mode.words + (if f.z.mode = .same then 0 else BitVec.ofNat 16 f.y.words) := by
  have h : memRead (stepPcAndY (sampleLines s)) (pca (stepPcAndY (sampleLines s))) = (stepPcAndY (sampleLines s)).y := by
    simp [memRead_stepPcAndY]
  exact memRead_readY_pca f (stepPcAndY (sampleLines s)) h

/-! ### The result -/

/-- The address of the store does not depend on what the ALU computed. -/
theorem storeAddress_aluPhase (n : Nat) (alu : Word → Word → Bool → AluOut) (run : Bool) (f : Format) (s : State) :
    storeAddress n (aluPhase alu run f s) = storeAddress n s := by
  have congr : ∀ (n : Nat) (s t : State), s.mem = t.mem → s.y = t.y → (followAddress n s).y = (followAddress n t).y := by
    intro n
    induction n with
    | zero => exact fun _ _ _ hy => hy
    | succ n ih => exact fun s t hm hy => ih (followY s) (followY t) hm (by simp [memRead, hm, hy])
  exact congr n _ _ (by simp [memRead]) (by simp [memRead])

/-- What storing the result leaves alone. -/
theorem writeResult_keeps (run : Bool) (f : Format) (s : State) :
    (writeResult run f s).x = s.x ∧ (writeResult run f s).ir = s.ir ∧ (writeResult run f s).latch = s.latch ∧
      (writeResult run f s).ioIn = s.ioIn ∧ (writeResult run f s).irqIn = s.irqIn ∧
      (writeResult run f s).index = s.index ∧ (writeResult run f s).vMode = s.vMode := by
  unfold writeResult
  split
  · simp
  · split <;> simp
  · rename_i n _
    have h := followAddress_keeps n (stepToResult s)
    have d := followAddress_data n (stepToResult s)
    split
    · unfold writeHigh storeResult
      split <;> split <;> simp [h.ir, h.latch, h.irqIn, h.index, h.vMode, d]
    · simp

/-- What storing the result does to `sr`: the upper half, in an executed instruction of class S with `&` (R121). -/
theorem writeResult_sr (run : Bool) (f : Format) (s : State) :
    (writeResult run f s).sr =
      if isStore f = true ∧ run = true ∧ zsrEff f = true then withHighFrom s.sr s.x else s.sr := by
  unfold writeResult isStore
  cases destination f with
  | none => simp
  | pc => cases run <;> simp
  | store n =>
    have h := followAddress_keeps n (stepToResult s)
    have d := followAddress_data n (stepToResult s)
    cases run
    · simp
    · by_cases hz : zsrEff f = true <;> by_cases hi : zioEff f = true <;>
        simp [writeHigh, storeResult, hz, hi, h.sr, d]

/-- What storing the result does to memory (R119, R120). -/
theorem writeResult_mem (run : Bool) (f : Format) (s : State) :
    (writeResult run f s).mem =
      match destination f with
      | .none => s.mem
      | .pc => if run then (memWrite s (pca s) s.x).mem else s.mem
      | .store n =>
        if run && !zioEff f then (memWrite (stepToResult s) (storeAddress n s) s.x).mem else (stepToResult s).mem := by
  unfold writeResult
  cases destination f with
  | none => rfl
  | pc => cases run <;> rfl
  | store n =>
    have d := followAddress_data n (stepToResult s)
    cases run
    · simp
    · by_cases hz : zsrEff f = true <;> by_cases hi : zioEff f = true <;>
        simp [writeHigh, storeResult, hz, hi, storeAddress, d]

/-- What storing the result does to the I/O space (R120, R201). -/
theorem writeResult_ioTrace (run : Bool) (f : Format) (s : State) :
    (writeResult run f s).ioTrace =
      match destination f with
      | .none | .pc => s.ioTrace
      | .store n =>
        if run && zioEff f then s.ioTrace ++ [.write (ioAddr (storeAddress n s)) s.x] else s.ioTrace := by
  unfold writeResult
  cases destination f with
  | none => rfl
  | pc => cases run <;> rfl
  | store n =>
    have d := followAddress_data n (stepToResult s)
    cases run
    · simp
    · by_cases hz : zsrEff f = true <;> by_cases hi : zioEff f = true <;>
        simp [writeHigh, storeResult, hz, hi, storeAddress, d]

/-! ### The whole instruction -/

section
variable (alu : Word → Word → Bool → AluOut) (f : Format) (s : State)

theorem execute_x : (execute alu f s).x = (aluResult alu f (operandState f s)).z := by
  simp [execute, writeResult_keeps]

theorem execute_ir : (execute alu f s).ir = s.ir := by
  simp [execute, writeResult_keeps]

theorem execute_index : (execute alu f s).index = s.index + 1 := by
  simp [execute, writeResult_keeps]

theorem execute_vMode : (execute alu f s).vMode = s.vMode := by
  simp [execute, writeResult_keeps]

theorem execute_irqIn : (execute alu f s).irqIn = s.irqIn.tail := by
  simp [execute, writeResult_keeps]

theorem execute_phase : (execute alu f s).phase = phaseAfter (executes f.guard s.sr) f := by
  simp [execute]

theorem execute_ioIn : (execute alu f s).ioIn = (operandState f s).ioIn := by
  simp [execute, writeResult_keeps]

theorem execute_latch : (execute alu f s).latch =
    if executes f.guard s.sr then 0 else if flagIe s.sr then s.latch ||| linesSeen s else s.latch := by
  simp [execute, finish_latch, writeResult_keeps]

theorem execute_mem : (execute alu f s).mem =
    (writeResult (executes f.guard s.sr) f (aluPhase alu (executes f.guard s.sr) f (operandState f s))).mem := by
  simp [execute]

theorem execute_ioTrace : (execute alu f s).ioTrace =
    (writeResult (executes f.guard s.sr) f (aluPhase alu (executes f.guard s.sr) f (operandState f s))).ioTrace := by
  simp [execute]

/-- Bits 3:0 of `sr` after an instruction are what phase 12 made of them. -/
theorem execute_flags (k : Nat) (h : k < 4) : (execute alu f s).sr[k] =
    (srAfterAlu (executes f.guard s.sr) f (aluResult alu f (operandState f s)) (operandState f s))[k] := by
  have hw : ∀ (r : Bool) (t : State), (writeResult r f t).sr[k] = t.sr[k] := by
    intro r t
    rw [writeResult_sr]
    split
    · rw [getElem_withHighFrom, if_neg (by omega)]
    · rfl
  simp only [execute, finish_sr]
  split
  · rw [getElem_clearLevels, dif_neg (by omega), hw]
    rfl
  · rw [hw]
    rfl

/-- Bits 15:4 of `sr` after an instruction: the upper half from the result where it is written, then the recorded requests. -/
theorem execute_high (k : Nat) (h4 : 4 ≤ k) (h : k < 16) : (execute alu f s).sr[k] =
    ((if (8 ≤ k ∧ k < 14) ∧ isStore f = true ∧ executes f.guard s.sr = true ∧ zsrEff f = true
        then (execute alu f s).x[k] else s.sr[k]) &&
      !(executes f.guard s.sr && (decide (9 ≤ k) && (if flagIe s.sr then s.latch ||| linesSeen s else s.latch).getLsbD (k - 9)))) := by
  have hw : (writeResult (executes f.guard s.sr) f (aluPhase alu (executes f.guard s.sr) f (operandState f s))).sr[k] =
      if (8 ≤ k ∧ k < 14) ∧ isStore f = true ∧ executes f.guard s.sr = true ∧ zsrEff f = true
        then (execute alu f s).x[k] else s.sr[k] := by
    rw [writeResult_sr, execute_x]
    by_cases hc : isStore f = true ∧ executes f.guard s.sr = true ∧ zsrEff f = true
    · rw [if_pos hc, getElem_withHighFrom]
      by_cases hk : 8 ≤ k ∧ k < 14
      · rw [if_pos hk, if_pos ⟨hk, hc⟩]
        rfl
      · rw [if_neg hk, if_neg fun e => hk e.1]
        simp [srAfterAlu_high _ _ _ _ k h4 h]
    · rw [if_neg hc, if_neg fun e => hc e.2]
      simp [srAfterAlu_high _ _ _ _ k h4 h]
  have hl : (writeResult (executes f.guard s.sr) f (aluPhase alu (executes f.guard s.sr) f (operandState f s))).latch =
      if flagIe s.sr then s.latch ||| linesSeen s else s.latch := by
    simp [writeResult_keeps]
  have hsr := finish_sr (executes f.guard s.sr) f
    (writeResult (executes f.guard s.sr) f (aluPhase alu (executes f.guard s.sr) f (operandState f s)))
  rw [hl] at hsr
  have he : (execute alu f s).sr[k] = _ := congrArg (fun w : Word => w[k]) hsr
  rw [he]
  cases hr : executes f.guard s.sr
  · simp only [hr] at hw
    simpa using hw
  · simp only [hr] at hw
    simp only [if_true, getElem_clearLevels]
    by_cases hk : 9 ≤ k ∧ k < 14
    · rw [dif_pos hk, hw]
      have h5 : k - 9 < 5 := by omega
      simp [hk.1, BitVec.getLsbD_eq_getElem h5]
    · rw [dif_neg hk, hw]
      by_cases h9 : 9 ≤ k
      · have h0 : (if flagIe s.sr then s.latch ||| linesSeen s else s.latch).getLsbD (k - 9) = false :=
          BitVec.getLsbD_of_ge _ _ (by omega)
        simp [h0]
      · simp [h9]

end

end Sys2Proof.Machine
end

