-- ==== Sys2Proof/Laws/PerInstr.lean ====
section
/-! SUPPORT. Per instruction: its instruction word carries its operation in bits 3:0, and says nothing else of the
operation (spec 30_encoding.md R82). -/

namespace Sys2Proof

/-- Bits 3:0 of an encoded word are the operation. -/
theorem encodeFields_op (f : Format) (op : BitVec 4) : (encodeFields f op).extractLsb' 0 4 = op := by
  unfold encodeFields
  ext k hk
  interval_cases k <;> simp [placeField]

namespace Laws.OperationField

/-- The instruction's word has its operation in bits 3:0, and decodes to an instruction of the same operation. -/
def Statement (i : Instr) : Prop :=
  (encode i).extractLsb' 0 4 = i.opcode ∧ i.canonical.opcode = i.opcode ∧ i.canonical.format = i.format

theorem add (f : Format) : Statement (.add f) := ⟨encodeFields_op f _, rfl, rfl⟩
theorem nor (f : Format) : Statement (.nor f) := ⟨encodeFields_op f _, rfl, rfl⟩
theorem ror (f : Format) : Statement (.ror f) := ⟨encodeFields_op f _, rfl, rfl⟩
theorem rol (f : Format) : Statement (.rol f) := ⟨encodeFields_op f _, rfl, rfl⟩
theorem sub (f : Format) : Statement (.sub f) := ⟨encodeFields_op f _, rfl, rfl⟩
theorem and (f : Format) : Statement (.and f) := ⟨encodeFields_op f _, rfl, rfl⟩
theorem rorc (f : Format) : Statement (.rorc f) := ⟨encodeFields_op f _, rfl, rfl⟩
theorem rolc (f : Format) : Statement (.rolc f) := ⟨encodeFields_op f _, rfl, rfl⟩
theorem addc (f : Format) : Statement (.addc f) := ⟨encodeFields_op f _, rfl, rfl⟩
theorem eor (f : Format) : Statement (.eor f) := ⟨encodeFields_op f _, rfl, rfl⟩
theorem asr (f : Format) : Statement (.asr f) := ⟨encodeFields_op f _, rfl, rfl⟩
theorem asl (f : Format) : Statement (.asl f) := ⟨encodeFields_op f _, rfl, rfl⟩
theorem lsl (f : Format) : Statement (.lsl f) := ⟨encodeFields_op f _, rfl, rfl⟩
theorem subc (f : Format) : Statement (.subc f) := ⟨encodeFields_op f _, rfl, rfl⟩
theorem or (f : Format) : Statement (.or f) := ⟨encodeFields_op f _, rfl, rfl⟩
theorem lsr (f : Format) : Statement (.lsr f) := ⟨encodeFields_op f _, rfl, rfl⟩
theorem bswp (f : Format) : Statement (.bswp f) := ⟨encodeFields_op f _, rfl, rfl⟩

end Laws.OperationField

end Sys2Proof
end

