-- ==== Sys2Proof/Laws/Safety.lean ====
section
/-! SUPPORT. What it means that no request line is ever seen active: nothing is recorded now, and it stays so. -/

namespace Sys2Proof.Machine

/-- Then no line is seen in the next instruction. -/
theorem linesSeen_of_noRequestEver (s : State) (h : noRequestEver s) : linesSeen s = 0 := by
  unfold linesSeen
  split
  · rename_i l ls e
    exact h.1 l (by simp [e])
  · rename_i e
    exact h.2 s.index (by simp [e])

/-- It depends on the environment's list and the instruction number alone, and an instruction uses up one sample. -/
theorem noRequestEver_next (s t : State) (hi : t.irqIn = s.irqIn.tail) (hk : t.index = s.index + 1)
    (h : noRequestEver s) : noRequestEver t := by
  refine ⟨fun l hl => h.1 l (List.mem_of_mem_tail (hi ▸ hl)), fun k hl => h.2 k ?_⟩
  rw [hi, hk, List.length_tail] at hl
  omega

/-- An executed instruction keeps it. -/
theorem noRequestEver_execute (alu : Word → Word → Bool → AluOut) (f : Format) (s : State) (h : noRequestEver s) :
    noRequestEver (execute alu f s) :=
  noRequestEver_next s _ (execute_irqIn alu f s) (execute_index alu f s) h

end Sys2Proof.Machine
end

