-- ==== Sys2Proof/Laws/Sequencer.lean ====
section
/-! SUPPORT. What one phase of the sequencer does, phase by phase: the transfer of the phase table (R210) that the control
signals make of it; and what runs of phases do, up to phase 12 and from phase 13 on. -/

namespace Sys2Proof.Machine.Sequencer

/-- In a PC phase the address is that of the current PC cell (R67). -/
theorem agate_levelBits (s : State) : agate false (levelBits s.sr) s.y = pca s := by
  simp only [agate, levelBits, pca, pcCell, level]
  cases s.sr[13] <;> cases s.sr[12] <;> cases s.sr[11] <;> cases s.sr[10] <;> cases s.sr[9] <;> rfl

/-- In any other phase the address is Y. -/
theorem agate_true (l : BitVec 3) (y : Word) : agate true l y = y := rfl

/-- The ALU adds 1 to Y in the phases that step the PC. -/
theorem alu_increment (a b y : Word) (c : Bool) :
    (aluBlock 0#4 (xmux true false a b) (ygate true y) c).1 = y + 1 := by
  simp [aluBlock, xmux, ygate, BitVec.add_comm]

/-- The ALU passes X in phase 17. -/
theorem alu_pass (a x y : Word) (c : Bool) : (aluBlock 0#4 (xmux true true a x) (ygate false y) c).1 = x := by
  simp [aluBlock, xmux, ygate]

section
variable (s : State) (cc : Bool) (a : List Access) (n : Nat)

/-- Phase 0: "PC -> y". -/
theorem microStep_p0 : microStep ⟨s, .p0, cc, a, n⟩ =
    ⟨loadPc s, nextPhase s.ir cc .p0, cc, a ++ [⟨.p0, false, false, pca s⟩], n + 1⟩ := by
  simp [microStep, outputs, isIn, busWord, busEffect, accessOf, endsInstruction, srAfterPhase, agate_levelBits, loadPc]

/-- Phase 1: "(y) -> Befehlsreg.". -/
theorem microStep_p1 : microStep ⟨s, .p1, cc, a, n⟩ =
    ⟨loadIr s, nextPhase s.ir cc .p1, cc, a ++ [⟨.p1, false, false, s.y⟩], n + 1⟩ := by
  simp [microStep, outputs, isIn, busWord, busEffect, accessOf, endsInstruction, srAfterPhase, agate_true, loadIr]

/-- Phase 2: "y+1 -> PC,y", with the request lines sampled and `CC` evaluated. -/
theorem microStep_p2 : microStep ⟨s, .p2, cc, a, n⟩ =
    ⟨stepPcAndY (sampleLines s), nextPhase s.ir (ccSignal s.ir s.sr) .p2, ccSignal s.ir s.sr,
      a ++ [⟨.p2, false, true, pca s⟩], n + 1⟩ := by
  have h : pca (sampleLines s) = pca s := rfl
  have h' := agate_levelBits (sampleLines s)
  simp only [sampleLines_sr, sampleLines_y] at h'
  simp [microStep, outputs, isIn, busWord, busEffect, accessOf, endsInstruction, srAfterPhase, h', stepPcAndY, stepPc,
    memWrite, alu_increment, h]

/-- Phase 3: "y+1 -> PC". -/
theorem microStep_p3 : microStep ⟨s, .p3, cc, a, n⟩ =
    ⟨stepPc s, nextPhase s.ir cc .p3, cc, a ++ [⟨.p3, false, true, pca s⟩], n + 1⟩ := by
  simp [microStep, outputs, isIn, busEffect, accessOf, endsInstruction, srAfterPhase, agate_levelBits, alu_increment,
    stepPc, memWrite]

/-- Phase 4: "(y) -> y". -/
theorem microStep_p4 : microStep ⟨s, .p4, cc, a, n⟩ =
    ⟨followY s, nextPhase s.ir cc .p4, cc, a ++ [⟨.p4, false, false, s.y⟩], n + 1⟩ := by
  simp [microStep, outputs, isIn, busWord, busEffect, accessOf, endsInstruction, srAfterPhase, agate_true, followY]

/-- Phase 5: "(y) -> y". -/
theorem microStep_p5 : microStep ⟨s, .p5, cc, a, n⟩ =
    ⟨followY s, nextPhase s.ir cc .p5, cc, a ++ [⟨.p5, false, false, s.y⟩], n + 1⟩ := by
  simp [microStep, outputs, isIn, busWord, busEffect, accessOf, endsInstruction, srAfterPhase, agate_true, followY]

/-- Phase 6: "(y) -> x", from memory or from the I/O space. -/
theorem microStep_p6 : microStep ⟨s, .p6, cc, a, n⟩ =
    ⟨if f8 s.ir then loadXFromIo s else loadX s, nextPhase s.ir cc .p6, cc, a ++ [⟨.p6, f8 s.ir, false, s.y⟩],
      n + 1⟩ := by
  cases h : f8 s.ir <;>
    simp [microStep, outputs, isIn, busWord, busEffect, accessOf, endsInstruction, srAfterPhase, agate_true, loadX,
      loadXFromIo, h]

/-- Phase 7: "PC -> y". -/
theorem microStep_p7 : microStep ⟨s, .p7, cc, a, n⟩ =
    ⟨loadPc s, nextPhase s.ir cc .p7, cc, a ++ [⟨.p7, false, false, pca s⟩], n + 1⟩ := by
  simp [microStep, outputs, isIn, busWord, busEffect, accessOf, endsInstruction, srAfterPhase, agate_levelBits, loadPc]

/-- Phase 8: "y+1 -> PC". -/
theorem microStep_p8 : microStep ⟨s, .p8, cc, a, n⟩ =
    ⟨stepPc s, nextPhase s.ir cc .p8, cc, a ++ [⟨.p8, false, true, pca s⟩], n + 1⟩ := by
  simp [microStep, outputs, isIn, busEffect, accessOf, endsInstruction, srAfterPhase, agate_levelBits, alu_increment,
    stepPc, memWrite]

/-- Phase 9: "(y) -> y". -/
theorem microStep_p9 : microStep ⟨s, .p9, cc, a, n⟩ =
    ⟨followY s, nextPhase s.ir cc .p9, cc, a ++ [⟨.p9, false, false, s.y⟩], n + 1⟩ := by
  simp [microStep, outputs, isIn, busWord, busEffect, accessOf, endsInstruction, srAfterPhase, agate_true, followY]

/-- Phase 10: "(y) -> y". -/
theorem microStep_p10 : microStep ⟨s, .p10, cc, a, n⟩ =
    ⟨followY s, nextPhase s.ir cc .p10, cc, a ++ [⟨.p10, false, false, s.y⟩], n + 1⟩ := by
  simp [microStep, outputs, isIn, busWord, busEffect, accessOf, endsInstruction, srAfterPhase, agate_true, followY]

/-- Phase 11: "(y) -> y". -/
theorem microStep_p11 : microStep ⟨s, .p11, cc, a, n⟩ =
    ⟨followY s, nextPhase s.ir cc .p11, cc, a ++ [⟨.p11, false, false, s.y⟩], n + 1⟩ := by
  simp [microStep, outputs, isIn, busWord, busEffect, accessOf, endsInstruction, srAfterPhase, agate_true, followY]

/-- The ALU's output in phase 12. -/
def phase12Result (s : State) : Word × Bool :=
  aluBlock (s.ir.extractLsb' 0 4) (xmux (f3 s.ir) (f4 s.ir) s.sr s.x) (ygate (f2 s.ir) s.y) (flagC s.sr)

/-- `sr` after phase 12. -/
def phase12Sr (s : State) (cc : Bool) : Word :=
  if cc && s.ir[10] then
    flagsOut (outputs s.ir cc .p12) s (xmux (f3 s.ir) (f4 s.ir) s.sr s.x) (ygate (f2 s.ir) s.y) (flagC s.sr)
  else s.sr

/-- The state when phase 12 is over: the result in X, the flags, and in the "Besonderheit" case the PC cell. -/
def phase12State (s : State) (cc : Bool) : State :=
  { (if f10 s.ir cc then s else memWrite s (pca s) (phase12Result s).1) with
    x := (phase12Result s).1, sr := phase12Sr s cc }

/-- Phase 12. -/
theorem microStep_p12 : microStep ⟨s, .p12, cc, a, n⟩ =
    ⟨if !c9 s.ir && !c8 s.ir then endOfInstruction cc (nextPhase s.ir cc .p12) (phase12State s cc) else phase12State s cc,
      nextPhase s.ir cc .p12, cc, a ++ (if f10 s.ir cc then [] else [⟨.p12, false, true, pca s⟩]), n + 1⟩ := by
  cases h : f10 s.ir cc <;>
    simp [microStep, outputs, isIn, busWord, busEffect, accessOf, endsInstruction, srAfterPhase, agate_levelBits,
      phase12State, phase12Result, phase12Sr, memWrite, h]

/-- Phase 13: "PC -> y". -/
theorem microStep_p13 : microStep ⟨s, .p13, cc, a, n⟩ =
    ⟨loadPc s, nextPhase s.ir cc .p13, cc, a ++ [⟨.p13, false, false, pca s⟩], n + 1⟩ := by
  simp [microStep, outputs, isIn, busWord, busEffect, accessOf, endsInstruction, srAfterPhase, agate_levelBits, loadPc]

/-- Phase 14: "y+1 -> PC", and into Y as well if the instruction is not executed. -/
theorem microStep_p14 : microStep ⟨s, .p14, cc, a, n⟩ =
    ⟨if cc then stepPc s else endOfInstruction false .p1 (stepPcAndY s), nextPhase s.ir cc .p14, cc,
      a ++ [⟨.p14, false, true, pca s⟩], n + 1⟩ := by
  cases cc <;>
    simp [microStep, outputs, isIn, busWord, busEffect, accessOf, endsInstruction, srAfterPhase, agate_levelBits,
      alu_increment, stepPc, stepPcAndY, memWrite, nextPhase, endOfInstruction]

/-- Phase 15: "(y) -> y". -/
theorem microStep_p15 : microStep ⟨s, .p15, cc, a, n⟩ =
    ⟨followY s, nextPhase s.ir cc .p15, cc, a ++ [⟨.p15, false, false, s.y⟩], n + 1⟩ := by
  simp [microStep, outputs, isIn, busWord, busEffect, accessOf, endsInstruction, srAfterPhase, agate_true, followY]

/-- Phase 16: "(y) -> y". -/
theorem microStep_p16 : microStep ⟨s, .p16, cc, a, n⟩ =
    ⟨followY s, nextPhase s.ir cc .p16, cc, a ++ [⟨.p16, false, false, s.y⟩], n + 1⟩ := by
  simp [microStep, outputs, isIn, busWord, busEffect, accessOf, endsInstruction, srAfterPhase, agate_true, followY]

/-- Phase 17: "x -> (y)", to memory or to the I/O space, then the upper half of `sr` and the end of the instruction. -/
theorem microStep_p17 : microStep ⟨s, .p17, cc, a, n⟩ =
    ⟨endOfInstruction cc .p0
        { (if f9 s.ir then storeXToIo s else storeX s) with sr := if f7 s.ir then withHighFrom s.sr s.x else s.sr },
      .p0, cc, a ++ [⟨.p17, f9 s.ir, true, s.y⟩], n + 1⟩ := by
  cases h : f9 s.ir <;>
    simp [microStep, outputs, isIn, busEffect, accessOf, endsInstruction, srAfterPhase, agate_true, alu_pass,
      nextPhase, storeX, storeXToIo, memWrite, h]

/-! ### Runs of phases -/

variable (k : Nat)

/-- A phase that does not end the instruction is followed by the next. -/
theorem runPhases_succ (m : Micro) (h : endsInstruction (microStep m).st.ir (microStep m).cc m.phase = false) :
    runPhases (k + 1) m = runPhases k (microStep m) := by
  simp [runPhases, h]

/-- A phase that ends the instruction is the last. -/
theorem runPhases_last (m : Micro) (h : endsInstruction (microStep m).st.ir (microStep m).cc m.phase = true) :
    runPhases (k + 1) m = microStep m := by
  simp [runPhases, h]

/-- Phases 3 to 6, immediate x. -/
theorem run_x_immediate (h4 : s.ir[4] = true) (h5 : s.ir[5] = false) :
    runPhases (k + 2) ⟨s, .p3, cc, a, n⟩ =
      runPhases k ⟨loadX (stepPc s), nextPhase s.ir cc .p6, cc,
        a ++ [⟨.p3, false, true, pca s⟩, ⟨.p6, false, false, s.y⟩], n + 2⟩ := by
  simp [runPhases, endsInstruction, nextPhase, microStep_p3, microStep_p6, h4, h5, f8]

/-- Phases 3 to 6, direct x. -/
theorem run_x_direct (h4 : s.ir[4] = false) (h5 : s.ir[5] = true) :
    runPhases (k + 3) ⟨s, .p3, cc, a, n⟩ =
      runPhases k ⟨if f8 s.ir then loadXFromIo (followY (stepPc s)) else loadX (followY (stepPc s)),
        nextPhase s.ir cc .p6, cc,
        a ++ [⟨.p3, false, true, pca s⟩, ⟨.p5, false, false, s.y⟩, ⟨.p6, f8 s.ir, false, (followY (stepPc s)).y⟩],
          n + 3⟩ := by
  simp [runPhases, endsInstruction, nextPhase, microStep_p3, microStep_p5, microStep_p6, h4, h5]
  rfl

/-- Phases 3 to 6, indirect x. -/
theorem run_x_indirect (h4 : s.ir[4] = true) (h5 : s.ir[5] = true) :
    runPhases (k + 4) ⟨s, .p3, cc, a, n⟩ =
      runPhases k ⟨if f8 s.ir then loadXFromIo (followY (followY (stepPc s))) else loadX (followY (followY (stepPc s))), nextPhase s.ir cc .p6, cc,
        a ++ [⟨.p3, false, true, pca s⟩, ⟨.p4, false, false, s.y⟩, ⟨.p5, false, false, (followY (stepPc s)).y⟩, ⟨.p6,
          f8 s.ir, false, (followY (followY (stepPc s))).y⟩], n + 4⟩ := by
  simp [runPhases, endsInstruction, nextPhase, microStep_p3, microStep_p4, microStep_p5, microStep_p6, h4, h5]
  rfl

/-- Phase 9, immediate y. -/
theorem run_y_immediate (h6 : s.ir[6] = true) (h7 : s.ir[7] = false) :
    runPhases (k + 1) ⟨s, .p9, cc, a, n⟩ =
      runPhases k ⟨followY s, .p12, cc,
        a ++ [⟨.p9, false, false, s.y⟩], n + 1⟩ := by
  simp [runPhases, endsInstruction, nextPhase, microStep_p9, h6, h7]

/-- Phases 9 to 11, direct y. -/
theorem run_y_direct (h6 : s.ir[6] = false) (h7 : s.ir[7] = true) :
    runPhases (k + 2) ⟨s, .p9, cc, a, n⟩ =
      runPhases k ⟨followY (followY s), .p12, cc,
        a ++ [⟨.p9, false, false, s.y⟩, ⟨.p11, false, false, (followY s).y⟩], n + 2⟩ := by
  simp [runPhases, endsInstruction, nextPhase, microStep_p9, microStep_p11, h6, h7]

/-- Phases 9 to 11, indirect y. -/
theorem run_y_indirect (h6 : s.ir[6] = true) (h7 : s.ir[7] = true) :
    runPhases (k + 3) ⟨s, .p9, cc, a, n⟩ =
      runPhases k ⟨followY (followY (followY s)), .p12, cc,
        a ++ [⟨.p9, false, false, s.y⟩, ⟨.p10, false, false, (followY s).y⟩, ⟨.p11, false, false,
          (followY (followY s)).y⟩], n + 3⟩ := by
  simp [runPhases, endsInstruction, nextPhase, microStep_p9, microStep_p10, microStep_p11, h6, h7]

/-- Phases 13 and 14 of an instruction that is not executed: the last two. -/
theorem run_z_not_executed :
    runPhases (k + 2) ⟨s, .p13, false, a, n⟩ =
      ⟨endOfInstruction false .p1 (stepPcAndY (loadPc s)), .p1, false,
        a ++ [⟨.p13, false, false, pca s⟩, ⟨.p14, false, true, pca s⟩], n + 2⟩ := by
  simp [runPhases, endsInstruction, nextPhase, microStep_p13, microStep_p14]

/-- Phases 13 and 14 of an executed instruction. -/
theorem run_z_executed :
    runPhases (k + 2) ⟨s, .p13, true, a, n⟩ =
      runPhases k ⟨stepPc (loadPc s), if c9 s.ir then .p15 else .p17, true,
        a ++ [⟨.p13, false, false, pca s⟩, ⟨.p14, false, true, pca s⟩], n + 2⟩ := by
  simp [runPhases, endsInstruction, nextPhase, microStep_p13, microStep_p14]
  rfl

/-- Phase 17, the last. -/
theorem run_store :
    runPhases (k + 1) ⟨s, .p17, cc, a, n⟩ = microStep ⟨s, .p17, cc, a, n⟩ := by
  simp [runPhases, endsInstruction]

/-- Phases 15 to 17 with the address in the operand word. -/
theorem run_store_direct (h8 : c8 s.ir = false) :
    runPhases (k + 2) ⟨s, .p15, cc, a, n⟩ =
      microStep ⟨followY s, .p17, cc, a ++ [⟨.p15, false, false, s.y⟩], n + 1⟩ := by
  simp [runPhases, endsInstruction, nextPhase, microStep_p15, h8]

/-- Phases 15 to 17 with a pointer to the address. -/
theorem run_store_indirect (h8 : c8 s.ir = true) :
    runPhases (k + 3) ⟨s, .p15, cc, a, n⟩ =
      microStep ⟨followY (followY s), .p17, cc,
        a ++ [⟨.p15, false, false, s.y⟩, ⟨.p16, false, false, (followY s).y⟩], n + 2⟩ := by
  simp [runPhases, endsInstruction, nextPhase, microStep_p15, microStep_p16, h8]

end

/-! ### The operands, whatever their modes -/

/-- Phases 3 to 6, whatever the mode of x: the x operand into X. -/
theorem run_x (s : State) (cc : Bool) (a : List Access) (n k : Nat) (h : (decodeFormat s.ir).x.mode ≠ .absent) :
    ∃ a', runPhases (k + xPhases (decodeFormat s.ir)) ⟨s, .p3, cc, a, n⟩ =
      runPhases k ⟨readX (decodeFormat s.ir) s, nextPhase s.ir cc .p6, cc, a', n + xPhases (decodeFormat s.ir)⟩ := by
  have hf : f8 s.ir = (s.ir[5] && xioEff (decodeFormat s.ir)) := by
    simp only [f8, xioEff, decodeFormat]
    cases s.ir[11] <;> cases s.ir[14] <;> cases s.ir[5] <;> rfl
  cases h4 : s.ir[4] <;> cases h5 : s.ir[5]
  · simp [decodeFormat, decodeMode, h4, h5] at h
  · have hm : (decodeFormat s.ir).x.mode = .direct := by simp [decodeFormat, decodeMode, h4, h5]
    simp only [xPhases, hm, run_x_direct _ _ _ _ _ h4 h5, readX, readAddressedX, hf, h5, Bool.true_and]
    exact ⟨_, rfl⟩
  · have hm : (decodeFormat s.ir).x.mode = .immediate := by simp [decodeFormat, decodeMode, h4, h5]
    simp only [xPhases, hm, run_x_immediate _ _ _ _ _ h4 h5, readX]
    exact ⟨_, rfl⟩
  · have hm : (decodeFormat s.ir).x.mode = .indirect := by simp [decodeFormat, decodeMode, h4, h5]
    simp only [xPhases, hm, run_x_indirect _ _ _ _ _ h4 h5, readX, readAddressedX, hf, h5, Bool.true_and]
    exact ⟨_, rfl⟩

/-- Phases 9 to 11, whatever the mode of y. -/
theorem run_y_word (s : State) (cc : Bool) (a : List Access) (n k : Nat) (h : (decodeFormat s.ir).y ≠ .absent) :
    ∃ a', runPhases (k + (1 + (match (decodeFormat s.ir).y with | .indirect => 2 | .direct => 1 | .absent | .immediate => 0)))
        ⟨s, .p9, cc, a, n⟩ =
      runPhases k ⟨(match (decodeFormat s.ir).y with
        | .absent => s | .immediate => followY s | .direct => followY (followY s) | .indirect => followY (followY (followY s))), .p12, cc, a',
         n + (1 + (match (decodeFormat s.ir).y with | .indirect => 2 | .direct => 1 | .absent | .immediate => 0))⟩ := by
  cases h6 : s.ir[6] <;> cases h7 : s.ir[7]
  · simp [decodeFormat, decodeMode, h6, h7] at h
  · have hm : (decodeFormat s.ir).y = .direct := by simp [decodeFormat, decodeMode, h6, h7]
    simp only [hm, run_y_direct _ _ _ _ _ h6 h7]
    exact ⟨_, rfl⟩
  · have hm : (decodeFormat s.ir).y = .immediate := by simp [decodeFormat, decodeMode, h6, h7]
    simp only [hm, run_y_immediate _ _ _ _ _ h6 h7, Nat.add_zero]
    exact ⟨_, rfl⟩
  · have hm : (decodeFormat s.ir).y = .indirect := by simp [decodeFormat, decodeMode, h6, h7]
    simp only [hm, run_y_indirect _ _ _ _ _ h6 h7]
    exact ⟨_, rfl⟩

/-- A mode field that is not 0. -/
theorem mode_present (h l : Bool) : (l || h) = decide (decodeMode h l ≠ .absent) := by cases h <;> cases l <;> rfl
/-- The result field is not `=`. -/
theorem result_not_same (h l : Bool) : (!l || h) = decide (decodeResultMode h l ≠ .same) := by cases h <;> cases l <;> rfl
/-- The result field is `=`. -/
theorem result_same (h l : Bool) : (l && !h) = decide (decodeResultMode h l = .same) := by cases h <;> cases l <;> rfl

/-- Phases 7 to 11: the y operand into Y. -/
theorem run_y (s : State) (cc : Bool) (a : List Access) (n k : Nat) (p : Phase) (h : (decodeFormat s.ir).y ≠ .absent)
    (hp : ((decodeFormat s.ir).x.mode ≠ .absent ∧ p = .p7) ∨
      ((decodeFormat s.ir).x.mode = .absent ∧ p = if (decodeFormat s.ir).z.mode = .same then .p9 else .p8)) :
    ∃ a', runPhases (k + yPhases (decodeFormat s.ir)) ⟨s, p, cc, a, n⟩ =
      runPhases k ⟨readY (decodeFormat s.ir) s, .p12, cc, a', n + yPhases (decodeFormat s.ir)⟩ := by
  have h89 : (!s.ir[8] || s.ir[9]) = decide ((decodeFormat s.ir).z.mode ≠ .same) := result_not_same _ _
  generalize hF : decodeFormat s.ir = F at *
  have key : ∀ (t : State) (a : List Access) (n : Nat), t.ir = s.ir →
      ∃ a', runPhases (k + (1 + (match F.y with | .indirect => 2 | .direct => 1 | .absent | .immediate => 0)))
        ⟨t, .p9, cc, a, n⟩ =
      runPhases k ⟨(match F.y with
        | .absent => t | .immediate => followY t | .direct => followY (followY t) | .indirect => followY (followY (followY t))), .p12, cc, a',
         n + (1 + (match F.y with | .indirect => 2 | .direct => 1 | .absent | .immediate => 0))⟩ := by
    intro t a n ht
    have := run_y_word t cc a n k (by rw [ht, hF]; exact h)
    rw [ht, hF] at this
    exact this
  have hy : readY F s = (match F.y with
        | .absent => s | .immediate => followY (stepPastY F (reloadPc F s))
        | .direct => followY (followY (stepPastY F (reloadPc F s)))
        | .indirect => followY (followY (followY (stepPastY F (reloadPc F s))))) := rfl
  have hyp : yPhases F = (1 + (match F.y with | .indirect => 2 | .direct => 1 | .absent | .immediate => 0)) +
      ((if F.z.mode = .same then 0 else 1) + (if F.x.mode = .absent then 0 else 1)) := by
    unfold yPhases; rw [if_neg h]; cases F.y <;> simp <;> omega
  have step8 : ∀ (t : State) (a : List Access) (n : Nat), t.ir = s.ir →
      ∃ a', runPhases (k + (1 + (match F.y with | .indirect => 2 | .direct => 1 | .absent | .immediate => 0)) +
          (if F.z.mode = .same then 0 else 1)) ⟨t, if F.z.mode = .same then .p9 else .p8, cc, a, n⟩ =
        runPhases (k + (1 + (match F.y with | .indirect => 2 | .direct => 1 | .absent | .immediate => 0)))
          ⟨stepPastY F t, .p9, cc, a', n + (if F.z.mode = .same then 0 else 1)⟩ := by
    intro t a n ht
    unfold stepPastY
    by_cases hz : F.z.mode = .same
    · simp only [hz, if_true]; exact ⟨_, rfl⟩
    · simp only [hz, if_false]
      rw [runPhases_succ _ _ (by simp [endsInstruction]), microStep_p8]
      cases hm : F.z.mode
      all_goals first | exact absurd hm hz | exact ⟨_, rfl⟩
  rcases hp with ⟨hx, rfl⟩ | ⟨hx, rfl⟩
  · have hr : reloadPc F s = loadPc s := by
      unfold reloadPc; cases hm : F.x.mode <;> first | exact absurd hm hx | rfl
    rw [hyp, if_neg hx, hy, hr, ← Nat.add_assoc, ← Nat.add_assoc, runPhases_succ _ _ (by simp [endsInstruction]),
      microStep_p7]
    have hn : nextPhase s.ir cc .p7 = if F.z.mode = .same then .p9 else .p8 := by
      simp only [nextPhase, h89]; by_cases hz : F.z.mode = .same <;> simp [hz]
    rw [hn]
    obtain ⟨a1, e1⟩ := step8 (loadPc s) (a ++ [⟨.p7, false, false, pca s⟩]) (n+1) rfl
    rw [e1]
    obtain ⟨a2, e2⟩ := key (stepPastY F (loadPc s)) a1 (n + 1 + (if F.z.mode = .same then 0 else 1)) (stepPastY_keeps _ _).ir
    rw [e2]
    refine ⟨a2, ?_⟩
    clear e1 e2 step8 key hyp hy
    cases hfy : F.y
    · exact absurd hfy h
    all_goals simp only [Nat.add_assoc, Nat.add_comm, Nat.add_left_comm]
  · have hr : reloadPc F s = s := by unfold reloadPc; rw [hx]
    rw [hyp, if_pos hx, hy, hr, Nat.add_zero, ← Nat.add_assoc]
    obtain ⟨a1, e1⟩ := step8 s a n rfl
    rw [e1]
    obtain ⟨a2, e2⟩ := key (stepPastY F s) a1 (n + (if F.z.mode = .same then 0 else 1)) (stepPastY_keeps _ _).ir
    rw [e2]
    refine ⟨a2, ?_⟩
    clear e1 e2 step8 key hyp hy
    cases hfy : F.y
    · exact absurd hfy h
    all_goals simp only [Nat.add_assoc, Nat.add_comm, Nat.add_left_comm]

/-- Phases 3 to 11, from phase 2's successor to phase 12: both operands have been read,
  in as many phases as R292 counts. -/
theorem run_operands (s : State) (cc : Bool) (a : List Access) (n k : Nat) :
    ∃ a', runPhases (k + yPhases (decodeFormat s.ir) + xPhases (decodeFormat s.ir)) ⟨s, nextPhase s.ir cc .p2, cc, a, n⟩ =
      runPhases k ⟨readY (decodeFormat s.ir) (readX (decodeFormat s.ir) s), .p12, cc, a',
        n + xPhases (decodeFormat s.ir) + yPhases (decodeFormat s.ir)⟩ := by
  have h45 : (s.ir[4] || s.ir[5]) = decide ((decodeFormat s.ir).x.mode ≠ .absent) := by
    exact mode_present _ _
  have h67 : (s.ir[6] || s.ir[7]) = decide ((decodeFormat s.ir).y ≠ .absent) := by
    exact mode_present _ _
  have h89 : (!s.ir[8] || s.ir[9]) = decide ((decodeFormat s.ir).z.mode ≠ .same) := result_not_same _ _
  have h89' : (s.ir[8] && !s.ir[9]) = decide ((decodeFormat s.ir).z.mode = .same) := by
    exact result_same _ _
  by_cases hx : (decodeFormat s.ir).x.mode = .absent
  · have hr : readX (decodeFormat s.ir) s = s := by unfold readX; rw [hx]
    have hxp : xPhases (decodeFormat s.ir) = 0 := by unfold xPhases; rw [hx]
    rw [hr, hxp]
    by_cases hy : (decodeFormat s.ir).y = .absent
    · have : nextPhase s.ir cc .p2 = .p12 := by simp [nextPhase, h45, h67, hx, hy]
      rw [this]
      have hyp : yPhases (decodeFormat s.ir) = 0 := by unfold yPhases; rw [if_pos hy]
      have : readY (decodeFormat s.ir) s = s := by unfold readY; rw [hy]
      rw [this, hyp]
      exact ⟨_, rfl⟩
    · have : nextPhase s.ir cc .p2 = if (decodeFormat s.ir).z.mode = .same then .p9 else .p8 := by
        simp only [nextPhase, h45, h67, hx, h89, Bool.and_assoc,
          h89']; by_cases hz : (decodeFormat s.ir).z.mode = .same <;> simp [hz, hy]
      rw [this]
      exact run_y s cc a n k _ hy (.inr ⟨hx, rfl⟩)
  · have : nextPhase s.ir cc .p2 = .p3 := by simp [nextPhase, h45, hx]
    rw [this]
    obtain ⟨a1, e1⟩ := run_x s cc a n (k + yPhases (decodeFormat s.ir)) hx
    rw [e1]
    have hi : (readX (decodeFormat s.ir) s).ir = s.ir := (readX_keeps _ _).ir
    by_cases hy : (decodeFormat s.ir).y = .absent
    · have : nextPhase s.ir cc .p6 = .p12 := by simp [nextPhase, h67, hy]
      rw [this]
      have hyp : yPhases (decodeFormat s.ir) = 0 := by unfold yPhases; rw [if_pos hy]
      have : readY (decodeFormat s.ir) (readX (decodeFormat s.ir) s) = readX (decodeFormat s.ir) s := by unfold readY; rw [hy]
      rw [this, hyp]
      exact ⟨_, rfl⟩
    · have : nextPhase s.ir cc .p6 = .p7 := by simp [nextPhase, h67, hy]
      rw [this]
      have := run_y (readX (decodeFormat s.ir) s) cc a1 (n + xPhases (decodeFormat s.ir)) k .p7
      rw [hi] at this
      exact this hy (.inl ⟨hx, rfl⟩)

end Sys2Proof.Machine.Sequencer
end

