-- ==== Sys2Proof/Machine/Assembly.lean ====
section
/-! DEFINITION. The written form of an instruction and the words of a listing, as the source's example lines show them
(spec 30_encoding.md R96 to R102). Labels, expressions and the assembler's messages are outside the spec's scope
(00_scope.md R4 c). -/

namespace Sys2Proof.Machine

/-- A line of a listing: an instruction with its operand words, or the directive `dcw` (R96, R100). -/
inductive AsmLine where
  | code (p : InstrWords)
  | dcw (w : Word)
  deriving DecidableEq, Repr

/-- The words of one line; none for an instruction that has no encoding (R99, R100, R102). -/
def AsmLine.words : AsmLine → Option (List Word)
  | .code p => if p.wellFormed then some (encodeWords p) else none
  | .dcw w => some [w]

/-- The words of a listing, line after line. -/
def assemble : List AsmLine → Option (List Word)
  | [] => some []
  | l :: ls =>
    match l.words, assemble ls with
    | some ws, some rest => some (ws ++ rest)
    | _, _ => none

/-- The mnemonic of an instruction (R82, R96). -/
def Instr.mnemonic : Instr → String
  | .add _ => "add"
  | .nor _ => "nor"
  | .ror _ => "ror"
  | .rol _ => "rol"
  | .sub _ => "sub"
  | .and _ => "and"
  | .rorc _ => "rorc"
  | .rolc _ => "rolc"
  | .addc _ => "addc"
  | .eor _ => "eor"
  | .asr _ => "asr"
  | .asl _ => "asl"
  | .lsl _ => "lsl"
  | .subc _ => "subc"
  | .or _ => "or"
  | .lsr _ => "lsr"
  | .bswp _ => "bswp"

/-- The symbol of the condition field: `tr` or a condition (R87, R88). -/
def Guard.symbol : Guard → String
  | .tr => "tr"
  | .cond .me => "me"
  | .cond .pe => "pe"
  | .cond .hi => "hi"
  | .cond .ls => "ls"
  | .cond .cc => "cc"
  | .cond .cs => "cs"
  | .cond .ne => "ne"
  | .cond .eq => "eq"
  | .cond .vc => "vc"
  | .cond .vs => "vs"
  | .cond .pl => "pl"
  | .cond .mi => "mi"
  | .cond .ge => "ge"
  | .cond .lt => "lt"
  | .cond .gt => "gt"
  | .cond .le => "le"

/-- A hexadecimal digit. -/
def hexDigit (d : Nat) : Char :=
  if d < 10 then Char.ofNat (48 + d) else Char.ofNat (55 + d)

/-- A number in hexadecimal with the prefix `$` (R97). -/
def number (w : Word) : String :=
  String.ofList ['$', hexDigit (w.toNat / 4096), hexDigit (w.toNat / 256 % 16), hexDigit (w.toNat / 16 % 16),
    hexDigit (w.toNat % 16)]

/-- A source operand with its operand word (R97). -/
def Mode.text (m : Mode) (w : Word) : String :=
  match m with
  | .absent => "-"
  | .immediate => "#" ++ number w
  | .direct => number w
  | .indirect => "(" ++ number w ++ ")"

/-- The result with its operand word (R97). -/
def ResultMode.text (m : ResultMode) (w : Word) : String :=
  match m with
  | .none => "-"
  | .same => "="
  | .direct => number w
  | .indirect => "(" ++ number w ++ ")"

/-- The modifiers before an operand: `&` before `@` (R98). -/
def modifiers (sr io : Bool) : String := (if sr then "&" else "") ++ (if io then "@" else "")

/-- The `n`-th operand word. -/
def operandWord (p : InstrWords) (n : Nat) : Word := p.operands.getD n 0

/-- The written form of an instruction, `mnemonic cond flags x,y,z` (R96). -/
def asmText (p : InstrWords) : String :=
  let f := p.instr.format
  Instr.mnemonic p.instr ++ " " ++ Guard.symbol f.guard ++ " " ++ (if f.setFlags then "sf" else "hf") ++ " " ++
    modifiers f.x.sr f.x.io ++ Mode.text f.x.mode (operandWord p 0) ++ "," ++
    Mode.text f.y (operandWord p f.x.mode.words) ++ "," ++
    modifiers f.z.sr f.z.io ++ ResultMode.text f.z.mode (operandWord p (f.x.mode.words + f.y.words))

end Sys2Proof.Machine
end

