-- ==== Sys2Proof/Tests/Slice0.lean ====
section
/-! SUPPORT. The model's own tests: ill-formed instructions that the check refuses, words decoded, one step at a time against the
worked examples and vectors of spec/ (95_test_vectors.md and the instruction files), and for every statement with
hypotheses a concrete input that meets them. -/

open Sys2Proof Sys2Proof.Machine Sys2Proof.Claims

namespace Sys2Proof.Tests

/-! ### Building small states -/

/-- Level `level sr` between two instructions, with the given memory, V from the ALU block's table. -/
def machine (sr : Word) (cells : Memory) (lines : List Lines) : State :=
  { State.resetWith cells .aluTable with sr := sr, phase := .p0, irqIn := lines }

/-- The vectors' start state (95_test_vectors.md, conventions): user mode, the instruction at `$0400`, no request. -/
def user (sr : Word) (code : List Word) (data : Memory) : State :=
  machine sr ((0, 0x400) :: ((List.range' 0x400 code.length).zip code ++ data)) [0]

/-- One step, and a look at the state after it. -/
def after (s : State) (look : State → Bool) : Bool :=
  match step s with
  | .next t => look t
  | .fault _ => false
  | .refused _ => false

/-- `op tr sf #x,#y,-` in user mode with the given carry: the result in X, and `sr`. -/
def computes (word x y sr z sr' : Word) : Bool :=
  after (user sr [word, x, y] []) fun t => t.x == z && t.sr == sr'

/-! ### Ill-formed instructions (30_encoding.md R90, R99) -/

/-- A conditional format, otherwise without anything. -/
def conditional : Format := { plain false .direct .absent .direct with guard := .cond .eq }

theorem test_sr_on_conditional_x_is_refused :
    Format.errors { conditional with x := { sr := true, io := false, mode := .direct } } = [.srOnConditionalX] := by decide

theorem test_io_on_conditional_x_is_refused :
    Format.errors { conditional with x := { sr := false, io := true, mode := .direct } } = [.ioOnConditionalX] := by decide

theorem test_sr_on_conditional_result_is_refused :
    Format.errors { conditional with z := { sr := true, io := false, mode := .direct } } = [.srOnConditionalZ] := by decide

theorem test_io_on_conditional_result_is_refused :
    Format.errors { conditional with z := { sr := false, io := true, mode := .direct } } = [.ioOnConditionalZ] := by decide

theorem test_missing_operand_word_is_refused :
    InstrWords.errors { instr := .add (plain false .immediate .direct .direct), operands := [1, 2] } = [.operandCount] := by
  decide

/-! ### Words written out from the encoding (R81 to R90, R102) -/

/-- `cccc b s zz yy xx oooo`, the fields of one word from the left. -/
def word (cccc : BitVec 4) (b s : BitVec 1) (zz yy xx : BitVec 2) (oooo : BitVec 4) : Word :=
  cccc ++ b ++ s ++ zz ++ yy ++ xx ++ oooo

/-- `add tr hf #100,xwert,ywert`, `$0A90` -/
theorem test_decode_add : decodeWord (word 0 1 0 2 2 1 0x0) = .add (
    plain false .immediate .direct .direct) := by decide

/-- `nor tr sf x,y,z` -/
theorem test_decode_nor : decodeWord (word 0 1 1 2 2 2 0x1) = .nor (
    plain true .direct .direct .direct) := by decide

/-- `ror tr sf #x,-,-` -/
theorem test_decode_ror : decodeWord (word 0 1 1 0 0 1 0x2) = .ror (
    plain true .immediate .absent .none) := by decide

/-- `rol pl sf x,-,z` -/
theorem test_decode_rol : decodeWord (word 0xA 0 1 2 0 2 0x3) = .rol (
    { plain true .direct .absent .direct with guard := .cond .pl }) := by decide

/-- `sub tr sf -,#y,=`, `$0D44` -/
theorem test_decode_sub : decodeWord (word 0 1 1 1 1 0 0x4) = .sub (
    plain true .absent .immediate .same) := by decide

/-- `and tr sf &-,#y,&z`, `$AE45` -/
theorem test_decode_and : decodeWord (word 0xA 1 1 2 1 0 0x5) = .and (
    { plain true .absent .immediate .direct with
      x := { sr := true, io := false, mode := .absent }, z := { sr := true, io := false, mode := .direct } }) := by decide

/-- `rorc tr sf x,-,z`, `$0E26` -/
theorem test_decode_rorc : decodeWord (word 0 1 1 2 0 2 0x6) = .rorc (
    plain true .direct .absent .direct) := by decide

/-- `rolc vs hf (x),(y),(z)` -/
theorem test_decode_rolc : decodeWord (word 0x9 0 0 3 3 3 0x7) = .rolc (
    { plain false .indirect .indirect .indirect with guard := .cond .vs }) := by decide

/-- `addc tr sf x,y,z`, `$0EA8` -/
theorem test_decode_addc : decodeWord (word 0 1 1 2 2 2 0x8) = .addc (
    plain true .direct .direct .direct) := by decide

/-- `eor me hf #x,(y),=` -/
theorem test_decode_eor : decodeWord (word 0 0 0 1 3 1 0x9) = .eor (
    { plain false .immediate .indirect .same with guard := .cond .me }) := by decide

/-- `asr tr hf (x),-,@z` -/
theorem test_decode_asr : decodeWord (word 0x1 1 0 2 0 3 0xA) = .asr (
    { plain false .indirect .absent .direct with
      z := { sr := false, io := true, mode := .direct } }) := by decide

/-- `asl tr hf -,-,=`, `$090B` -/
theorem test_decode_asl : decodeWord (word 0 1 0 1 0 0 0xB) = .asl (
    plain false .absent .absent .same) := by decide

/-- `subc tr sf #x,#y,-`, `$0C5C` -/
theorem test_decode_subc : decodeWord (word 0 1 1 0 1 1 0xC) = .subc (
    plain true .immediate .immediate .none) := by decide

/-- `or tr hf @x,#y,(z)`, `$4B6D` -/
theorem test_decode_or : decodeWord (word 0x4 1 0 3 1 2 0xD) = .or (
    { plain false .direct .immediate .indirect with
      x := { sr := false, io := true, mode := .direct } }) := by decide

/-- `lsr ls sf #x,y,-` -/
theorem test_decode_lsr : decodeWord (word 0x3 0 1 0 2 1 0xE) = .lsr (
    { plain true .immediate .direct .none with guard := .cond .ls }) := by decide

/-- `bswp le sf (x),(y),(z)`, `$F7FF` -/
theorem test_decode_bswp : decodeWord (word 0xF 0 1 3 3 3 0xF) = .bswp (
    { plain true .indirect .indirect .indirect with guard := .cond .le }) := by decide

/-- `lsl` has the words of `asl` (R101): `asl tr sf -,$0500,=` is `$0D8B`. -/
theorem test_decode_lsl : encode (.lsl (plain true .absent .direct .same)) = word 0 1 1 1 2 0 0xB ∧
    decodeWord (encode (.lsl (plain true .absent .direct .same))) = .asl (plain true .absent .direct .same) := by decide

theorem test_decode_refuses_no_words : decode [] = .error .noInstructionWord := rfl

theorem test_decode_refuses_missing_operand : decode [0x0A90, 100, 0x111] = .error .operandWordMissing := rfl

/-- The source's example line and its words (95_test_vectors.md 1.1). -/
theorem test_assemble_example_line : assemble [.code { instr := decodeWord 0x4B6D, operands := [0x20, 0x20, 30] }, .dcw 100] =
    some [0x4B6D, 0x0020, 0x0020, 0x001E, 0x0064] := by decide

/-! ### What the operations compute (95_test_vectors.md 2.1 and the instruction files) -/

theorem test_add_overflows : computes 0x0C50 0x7FFF 0x0001 0x3E00 0x8000 0x3E0C = true := by decide

theorem test_nor : computes 0x0C51 0x0000 0x0000 0x3E01 0xFFFF 0x3E04 = true := by decide

theorem test_ror_takes_bit_0_round : computes 0x0C52 0x0001 0x1234 0x3E00 0x8000 0x3E05 = true := by decide

theorem test_rol_takes_bit_15_round : computes 0x0C53 0x8000 0x0000 0x3E00 0x0001 0x3E01 = true := by decide

theorem test_sub_takes_x_from_y : computes 0x0C54 0x0001 0x8000 0x3E00 0x7FFF 0x3E08 = true := by decide

theorem test_and_clears_carry : computes 0x0C55 0xFFFF 0x8001 0x3E01 0x8001 0x3E04 = true := by decide

theorem test_rorc_shifts_carry_in : computes 0x0C56 0x0000 0x0000 0x3E01 0x8000 0x3E04 = true := by decide

theorem test_rolc_shifts_carry_in : computes 0x0C57 0x8000 0x0000 0x3E01 0x0001 0x3E09 = true := by decide

theorem test_addc_adds_carry : computes 0x0C58 0x7FFF 0x0000 0x3E01 0x8000 0x3E0C = true := by decide

theorem test_eor : computes 0x0C59 0x8000 0x8000 0x3E00 0x0000 0x3E0A = true := by decide

theorem test_asr_keeps_sign : computes 0x0C5A 0x8001 0x0000 0x3E00 0xC000 0x3E05 = true := by decide

theorem test_lsr_fills_with_0 : computes 0x0C5E 0x8001 0x0000 0x3E01 0x4000 0x3E01 = true := by decide

theorem test_asl : computes 0x0C5B 0xC000 0x0000 0x3E00 0x8000 0x3E05 = true := by decide

theorem test_subc_takes_borrow : computes 0x0C5C 0x7FFF 0xFFFF 0x3E01 0x7FFF 0x3E08 = true := by decide

theorem test_or : computes 0x0C5D 0x0001 0x0000 0x3E01 0x0001 0x3E00 = true := by decide

theorem test_bswp_takes_low_byte_of_y : computes 0x0C5F 0x0001 0x00FF 0x3E00 0xFF00 0x3E04 = true := by decide

/-- `lsl` as its own spelling: `$C000` one place to the left (R177). -/
theorem test_lsl : (match exec (.lsl (plain true .immediate .absent .none)) { user 0x3E00 [0x0C1B, 0xC000] [] with y := 0x400 } with
    | .next t => t.x == 0x8000 && t.sr == 0x3E05
    | .fault _ => false
    | .refused _ => false) = true := by decide

/-! ### Whole instructions (95_test_vectors.md 2.4 to 2.6; the names are the vectors') -/

theorem test_V18_add_longest_form : after (user 0x3E00 [0x0FF0, 0x500, 0x501, 0x502]
    [(0x500, 0x510), (0x501, 0x511), (0x502, 0x512), (0x510, 0x7FFF), (0x511, 1)]) (fun t =>
    memRead t 0x512 == 0x8000 && t.sr == 0x3E0C && memRead t 0 == 0x404) = true := by decide

theorem test_V3_sub_overwrites_its_immediate : after (user 0x3E00 [0x0D44, 7] []) (fun t =>
    memRead t 0x401 == 6 && memRead t 0 == 0x402 && t.sr == 0x3E00) = true := by decide

theorem test_V29_rorc_in_place : after (user 0x3E01 [0x0E26, 0x500, 0x500] [(0x500, 1)]) (fun t =>
    memRead t 0x500 == 0x8000 && t.sr == 0x3E05) = true := by decide

theorem test_V28_asl_ignores_y : after (user 0x3E00 [0x0D8B, 0x500] [(0x500, 0x1234)]) (fun t =>
    memRead t 0x500 == 2 && t.sr == 0x3E00) = true := by decide

theorem test_V27_bswp_of_one_word : after (user 0x3E00 [0x0EAF, 0x500, 0x500, 0x501] [(0x500, 0x12AB)]) (fun t =>
    memRead t 0x501 == 0xAB12 && t.sr == 0x3E04) = true := by decide

theorem test_V30_subc_discards_result : after (user 0x3E01 [0x0C5C, 1, 0] []) (fun t =>
    t.x == 0xFFFE && t.sr == 0x3E05 && memRead t 0 == 0x403) = true := by decide

theorem test_V32_or_merges_sr_into_io_value : after ({ user 0x3E05 [0xCA2D, 0x20, 0x500] [] with ioIn := [0xFFFF] }) (fun t =>
    memRead t 0x500 == 0xFEF5 && t.ioTrace == [.read 0x20 0xFFFF]) = true := by decide

theorem test_V34_and_writes_sr_before_request_clears : after (machine 0x3F00 [(0, 0x400), (1, 0x700), (0x400, 0xAA45), (0x401, 0xFEFF), (0x402, 0x500)] [1]) (fun t =>
    t.sr == 0x3C00 && t.latch == 0 && fetchAddress t == 0x700) = true := by decide

/-- V21, first step: a request seen in an instruction that is not executed stays in the latch (R255). -/
theorem test_V21_request_waits_for_an_executed_instruction :
    after (machine 0x3F00 [(0, 0x400), (3, 0x700), (0x400, 0x7110), (0x401, 0x600)] [4]) (fun t =>
      t.sr == 0x3F00 && t.latch == 4 && memRead t 0 == 0x402) = true := by decide

/-- 2.6: the first instruction after reset is the one at `$8000`; PC cell 5 is written, not read. -/
theorem test_reset_vector :
    after (State.resetWith [(5, 0x1111), (0x8000, 0x0A10), (0x8001, 0x1234), (0x8002, 0x500)] .any) (fun t =>
      memRead t 5 == 0x8003 && memRead t 0x500 == 0x1234 && t.sr == 0) = true := by decide

/-- A word placed for the fetch is the one the next step runs: `$0910` with operand word 0 jumps to 0. -/
theorem test_placed_word_runs : after (State.reset.withFetchWord 16 0x0910) (fun t => t.ir == 0x0910 && memRead t 5 == 0) = true := by
  decide

/-- The three clocks over one phase after reset (R221). -/
theorem test_clock_waveform : (List.range 8).map (fun n => (clockT0 n, clockT1 n, clockT2 n)) =
    [(false, false, false), (false, false, false), (false, false, false), (false, false, true),
     (true, true, true), (true, false, false), (true, false, false), (true, false, false)] := by decide

/-- R292 for V18, by the sequencer itself: 18 phases. -/
theorem test_V18_takes_18_phases :
    (Sequencer.runInstruction (user 0x3E00 [0x0FF0, 0x500, 0x501, 0x502] [])).phases = 18 := by decide

/-! ### Inputs that meet the hypotheses of the statements, clause by clause -/

/-- A state in which the instruction word has been fetched, with `sr`, the words of the instruction at `$0400` and data. -/
def begun (sr : Word) (code : List Word) (data : Memory) : State := fetch (user sr code data)

/-- The instruction whose word has been fetched. -/
def fetched (s : State) : Instr := decodeWord s.ir

theorem witness_ResetHasInvariant :
    Memory.wf [] = true ∧ Memory.wf [(0, 1), (5, 0x8003), (0xFFFF, 0xFFFF)] = true := by decide

/-- Both branches: 95_test_vectors.md 2.6 stores at `$0500`; `$0910` is a jump of class P; a store to cell 5 hits it. -/
theorem witness_FirstInstructionComesFromRomBase :
    destination (decodeWord 0x0A10).format = .store 1 ∧ destination (decodeWord 0x0910).format = .pc ∧
      targetOf (decodeWord 0x0A10) { State.resetWith [(0x8000, 0x0A10), (0x8002, 5)] .any with irqIn := [0] } = 5 ∧
      targetOf (decodeWord 0x0A10) { State.resetWith [(0x8000, 0x0A10), (0x8002, 0x500)] .any with irqIn := [0] } = 0x500 := by
  decide

theorem witness_EveryStepKeepsInvariant :
    Inv (machine 0x3F00 [(0, 0x400), (0x400, 0x7110)] [0x1F]) = true ∧
      ∃ t, step (machine 0x3F00 [(0, 0x400), (0x400, 0x7110)] [0x1F]) = .next t := ⟨by decide, _, rfl⟩

/-- V19: a store to the ROM word `$9000`. -/
theorem witness_RomWordsNeverChange :
    isRam 0x9000 = false ∧ isRam 0x8000 = false ∧ isRam 0xFFFF = false ∧
      ∃ t, step (user 0x3E00 [0x0A10, 0x55, 0x9000] [(0x9000, 0x1111)]) = .next t := ⟨by decide, by decide, by decide, _, rfl⟩

theorem witness_DecodeInvertsEncode :
    InstrWords.wellFormed { instr := decodeWord 0xFFFF, operands := [1, 2, 3] } = true ∧
      InstrWords.wellFormed { instr := .lsl (plain true .absent .absent .none), operands := [] } = true ∧
      InstrWords.wellFormed { instr := decodeWord 0xF7FF, operands := [0xFFFF, 0, 0x8000] } = true := by decide

theorem witness_OperationFieldSelectsInstruction :
    ∀ op : BitVec 4, (word 0xF 1 1 3 3 3 op).extractLsb' 0 4 = op := by decide

/-- Both values of `BED`. -/
theorem witness_InstructionWordFields : (0x5580 : Word)[11] = false ∧ (0x4B6D : Word)[11] = true := by decide

/-- V6, V1, V18, V5, V4, V32 and V31: without and with `&`, without and with `@`, every mode of x; and a store of each kind. -/
theorem witness_OperandsByMode :
    (xsrEff (decodeWord 0x0A00).format = false ∧ xsrEff (decodeWord 0x5A20).format = false) ∧
    (xsrEff (decodeWord 0x8A0D).format = true ∧ (decodeWord 0x8A0D).format.x.mode = .absent) ∧
    (xsrEff (decodeWord 0x8A1D).format = true ∧ (decodeWord 0x8A1D).format.x.mode ≠ .absent) ∧
    (xsrEff (decodeWord 0xCA2D).format = true ∧ xioEff (decodeWord 0xCA2D).format = true) ∧
    ((decodeWord 0x0A20).format.x.mode = .direct ∧ (decodeWord 0x0FF0).format.x.mode = .indirect) ∧
    (destination (decodeWord 0x0D44).format = .store 0 ∧ destination (decodeWord 0x0A90).format = .store 1 ∧
      destination (decodeWord 0x0FF0).format = .store 2) := by decide

/-- V1 for x and V36 for y. -/
theorem witness_OwnPcCellAsOperand :
    ((decodeWord 0x0A20).format.x.mode = .direct ∧ xioEff (decodeWord 0x0A20).format = false ∧
      (begun 0x3E00 [0x0A20, 0, 0x500] []).y + 1 ≠ pca (begun 0x3E00 [0x0A20, 0, 0x500] []) ∧
      memRead (begun 0x3E00 [0x0A20, 0, 0x500] []) ((begun 0x3E00 [0x0A20, 0, 0x500] []).y + 1) =
        pca (begun 0x3E00 [0x0A20, 0, 0x500] [])) ∧
    ((decodeWord 0x0A90).format.y = .direct ∧
      yWordAddress (decodeWord 0x0A90).format (begun 0x3E00 [0x0A90, 3, 0, 0x500] []) ≠ pca (begun 0x3E00 [0x0A90, 3, 0, 0x500] []) ∧
      memRead (begun 0x3E00 [0x0A90, 3, 0, 0x500] [])
        (yWordAddress (decodeWord 0x0A90).format (begun 0x3E00 [0x0A90, 3, 0, 0x500] [])) =
          pca (begun 0x3E00 [0x0A90, 3, 0, 0x500] [])) := by decide

theorem witness_ConditionFunctions : (0x0800 : Word)[11] = true ∧ (0xFFFF : Word)[11] = true := by decide

theorem witness_LevelIsHighestClearBit :
    (0x1F00 : Word)[13] = false ∧
    ((0x2F00 : Word)[13] = true ∧ (0x2F00 : Word)[12] = false) ∧
    ((0x3700 : Word)[13] = true ∧ (0x3700 : Word)[12] = true ∧ (0x3700 : Word)[11] = false) ∧
    ((0x3B00 : Word)[13] = true ∧ (0x3B00 : Word)[12] = true ∧ (0x3B00 : Word)[11] = true ∧ (0x3B00 : Word)[10] = false) ∧
    ((0x3D00 : Word)[13] = true ∧ (0x3D00 : Word)[12] = true ∧ (0x3D00 : Word)[11] = true ∧ (0x3D00 : Word)[10] = true ∧
      (0x3D00 : Word)[9] = false) ∧
    ((0x3E00 : Word)[13] = true ∧ (0x3E00 : Word)[12] = true ∧ (0x3E00 : Word)[11] = true ∧ (0x3E00 : Word)[10] = true ∧
      (0x3E00 : Word)[9] = true) := by decide

/-- The flags' part of every statement of a result: an executed instruction with `sf` and no `&` on its result, tested on
an unconditional format and on a conditional one. -/
theorem witness_Computes :
    (executes (plain true .direct .direct .none).guard 0x3E00 = true ∧ (plain true .direct .direct .none).setFlags = true ∧
      zsrEff (plain true .direct .direct .none) = false) ∧
    executes (.cond .eq) 0x3E02 = true := by decide

/-- A word that is neither the PC cell nor the stored one, in a storing instruction and in one that stores nothing. -/
theorem witness_MemoryFrame :
    ((0x501 : Word) ≠ pca (begun 0x3E00 [0x0A10, 5, 0x500] []) ∧
      stores (fetched (begun 0x3E00 [0x0A10, 5, 0x500] [])) (begun 0x3E00 [0x0A10, 5, 0x500] []) = true ∧
      targetOf (fetched (begun 0x3E00 [0x0A10, 5, 0x500] [])) (begun 0x3E00 [0x0A10, 5, 0x500] []) = 0x500) ∧
    stores (fetched (begun 0x3E00 [0x0C10, 5] [])) (begun 0x3E00 [0x0C10, 5] []) = false ∧
    ∃ t, exec (fetched (begun 0x3E00 [0x0A10, 5, 0x500] [])) (begun 0x3E00 [0x0A10, 5, 0x500] []) = .next t :=
  ⟨by decide, by decide, _, rfl⟩

/-- V10: class P. -/
theorem witness_ResultLands_pc :
    destination (fetched (begun 0x3E0A [0x2D10, 0x123] [])).format = .pc ∧
      executes (fetched (begun 0x3E0A [0x2D10, 0x123] [])).format.guard 0x3E0A = true := by decide

/-- Class S to the last RAM word. -/
theorem witness_ResultLands_ram :
    stores (fetched (begun 0x3E00 [0x0A10, 5, 0x7FFF] [])) (begun 0x3E00 [0x0A10, 5, 0x7FFF] []) = true ∧
      zioEff (fetched (begun 0x3E00 [0x0A10, 5, 0x7FFF] [])).format = false ∧
      isRam (targetOf (fetched (begun 0x3E00 [0x0A10, 5, 0x7FFF] [])) (begun 0x3E00 [0x0A10, 5, 0x7FFF] [])) = true := by decide

/-- Class S to the first ROM word. -/
theorem witness_ResultLands_rom :
    stores (fetched (begun 0x3E00 [0x0A10, 5, 0x8000] [])) (begun 0x3E00 [0x0A10, 5, 0x8000] []) = true ∧
      zioEff (fetched (begun 0x3E00 [0x0A10, 5, 0x8000] [])).format = false ∧
      isRam (targetOf (fetched (begun 0x3E00 [0x0A10, 5, 0x8000] [])) (begun 0x3E00 [0x0A10, 5, 0x8000] [])) = false := by
  decide

/-- V11: class S to the I/O space. -/
theorem witness_ResultLands_io :
    stores (fetched (begun 0x3E00 [0x1A10, 0x55, 0x8010] [])) (begun 0x3E00 [0x1A10, 0x55, 0x8010] []) = true ∧
      zioEff (fetched (begun 0x3E00 [0x1A10, 0x55, 0x8010] [])).format = true := by decide

/-- V15: `eq` with Z = 0. -/
theorem witness_NotExecutedOnlyStepsPc :
    executes (fetched (begun 0x3E00 [0x7690, 1, 0x500, 0x501] [])).format.guard
      (begun 0x3E00 [0x7690, 1, 0x500, 0x501] []).sr = false := by decide

/-- The two clauses: V15 is not executed, V8 has `hf`; V9 has `sf` and `&` on its result. -/
theorem witness_FlagsChangeOnlyUnderSetFlags :
    executes (decodeWord 0x7690).format.guard 0x3E00 = false ∧ (decodeWord 0x2A10).format.setFlags = false ∧
      (executes (decodeWord 0x2E10).format.guard 0x3E0A = true ∧ (decodeWord 0x2E10).format.setFlags = true ∧
        zsrEff (decodeWord 0x2E10).format = true) := by decide

/-- V23: in user mode lines 2 and 4 are seen together; and line 1 alone, the lowest that is above level 0. -/
theorem witness_InterruptEntry :
    (executes (decodeWord 0x0800).format.guard 0x3F00 = true ∧ zsrEff (decodeWord 0x0800).format = false ∧
      destination (decodeWord 0x0800).format = .none) ∧
    level (0x3F00 : Word) < highest (recorded (machine 0x3F00 [(0, 0x400), (0x400, 0x0800)] [0x0A])) ∧
    level (0x3F00 : Word) < highest (recorded (machine 0x3F00 [(0, 0x400), (0x400, 0x0800)] [0x01])) ∧
    level (0x2F00 : Word) < highest (recorded (machine 0x2F00 [(4, 0x400), (0x400, 0x0800)] [0x10])) := by decide

/-- The return from level 1 and from level 5. -/
theorem witness_ReturnSetsLevelBit :
    (recorded (begun 0x3C00 [0xAA4D, 0x200, 0x500] []) = 0 ∧
      (begun 0x3E00 [0xAA4D, 0x200, 0x500] []).y + 1 ≠ pca (begun 0x3E00 [0xAA4D, 0x200, 0x500] []) ∧
      memRead (begun 0x3E00 [0xAA4D, 0x200, 0x500] []) ((begun 0x3E00 [0xAA4D, 0x200, 0x500] []).y + 1) =
        (1 : Word) <<< (8 + 1)) ∧
    (recorded (fetch (machine 0x1E00 [(5, 0x400), (0x400, 0xAA4D), (0x401, 0x2000)] [0])) = 0 ∧
      (fetch (machine 0x1E00 [(5, 0x400), (0x400, 0xAA4D), (0x401, 0x2000)] [0])).y + 1 ≠
        pca (fetch (machine 0x1E00 [(5, 0x400), (0x400, 0xAA4D), (0x401, 0x2000)] [0])) ∧
      memRead (fetch (machine 0x1E00 [(5, 0x400), (0x400, 0xAA4D), (0x401, 0x2000)] [0]))
        ((fetch (machine 0x1E00 [(5, 0x400), (0x400, 0xAA4D), (0x401, 0x2000)] [0])).y + 1) = (1 : Word) <<< (8 + 5)) := by
  decide

/-- R199's worked example, and level 5 entered from level 4. -/
theorem witness_SoftwareEntersLevel :
    (recorded (begun 0x3E00 [0xAA45, 0xF7FF, 0x500] []) = 0 ∧
      (begun 0x3E00 [0xAA45, 0xF7FF, 0x500] []).y + 1 ≠ pca (begun 0x3E00 [0xAA45, 0xF7FF, 0x500] []) ∧
      memRead (begun 0x3E00 [0xAA45, 0xF7FF, 0x500] []) ((begun 0x3E00 [0xAA45, 0xF7FF, 0x500] []).y + 1) =
        ~~~((1 : Word) <<< (8 + 3)) ∧ level (0x3E00 : Word) < 3) ∧
    (recorded (fetch (machine 0x2E00 [(4, 0x400), (0x400, 0xAA45), (0x401, 0xDFFF)] [0])) = 0 ∧
      (fetch (machine 0x2E00 [(4, 0x400), (0x400, 0xAA45), (0x401, 0xDFFF)] [0])).y + 1 ≠
        pca (fetch (machine 0x2E00 [(4, 0x400), (0x400, 0xAA45), (0x401, 0xDFFF)] [0])) ∧
      memRead (fetch (machine 0x2E00 [(4, 0x400), (0x400, 0xAA45), (0x401, 0xDFFF)] [0]))
        ((fetch (machine 0x2E00 [(4, 0x400), (0x400, 0xAA45), (0x401, 0xDFFF)] [0])).y + 1) = ~~~((1 : Word) <<< (8 + 5)) ∧
      level (0x2E00 : Word) < 5) := by
  decide

/-- The jump of 95_test_vectors.md 1.2, taken with C = 1 and not taken with C = 0, no request recorded. -/
theorem witness_JumpWritesCurrentPc :
    (begun 0x3E01 [0x5110, 0x1234] []).y + 1 ≠ pca (begun 0x3E01 [0x5110, 0x1234] []) ∧
      executes (.cond .cs) (begun 0x3E01 [0x5110, 0x1234] []).sr = true ∧
      recorded (begun 0x3E01 [0x5110, 0x1234] []) = 0 ∧ executes (.cond .cs) 0x3E00 = false := by decide

/-- V3, and the same instruction in ROM. -/
theorem witness_ImmediateIsOverwrittenInRam :
    ((begun 0x3E00 [0x0D44, 7] []).y + 1 ≠ pca (begun 0x3E00 [0x0D44, 7] []) ∧
      isRam ((begun 0x3E00 [0x0D44, 7] []).y + 1) = true) ∧
    ((fetch (machine 0x3E00 [(0, 0x9000), (0x9000, 0x0D44), (0x9001, 7)] [0])).y + 1 ≠
        pca (fetch (machine 0x3E00 [(0, 0x9000), (0x9000, 0x0D44), (0x9001, 7)] [0])) ∧
      isRam ((fetch (machine 0x3E00 [(0, 0x9000), (0x9000, 0x0D44), (0x9001, 7)] [0])).y + 1) = false) := by decide

/-- V5. -/
theorem witness_StatusRegisterIsStored :
    isRam (targetOf (.or { plain false .absent .absent .direct with x := { sr := true, io := false, mode := .absent } })
      (begun 0x3E0F [0x8A0D, 0x500] [])) = true := by decide

/-- V15 leaves the sequencer at P1. -/
theorem witness_SkippedPhaseZeroIsInvisible :
    after (user 0x3E00 [0x7690, 1, 0x500, 0x501] []) (fun t => t.phase == .p1) = true := by decide

/-- Program A's last line, `add tr hf #l2,-,=` at `$010F`. -/
def selfJump (sr : Word) (lines : List Lines) : State := machine sr [(0, 0x10F), (0x10F, 0x0910), (0x110, 0x10F)] lines

theorem witness_SelfJumpRepeats : let s := selfJump 0x3E00 [0, 0]
    s.phase = .p0 ∧ flagIe s.sr = false ∧ s.latch = 0 ∧ nextInstr s = .add (plain false .immediate .absent .same) ∧
      fetchAddress s + 1 ≠ pca s ∧ memRead s (fetchAddress s + 1) = fetchAddress s := by decide

/-- The other alternative, `ie = 1`: an environment in which no line is ever active. The lines of all instructions to come are
free values, so that this is as far as a concrete state goes. -/
theorem witness_SelfJumpRepeats_quiet (quiet : ∀ k, Config.irqSeen k = 0) :
    flagIe (selfJump 0x3F00 [0, 0]).sr = true ∧ noRequestEver (selfJump 0x3F00 [0, 0]) :=
  ⟨by decide, by decide, fun k _ => quiet k⟩

theorem witness_EndedRunStays :
    runEnded (selfJump 0x3E00 [0, 0]) ∧ (selfJump 0x3E00 [0, 0]).phase = .p0 ∧
      (nextInstr (selfJump 0x3E00 [0, 0])).format.setFlags = false ∧
      readsIo (nextInstr (selfJump 0x3E00 [0, 0])).format = false :=
  ⟨⟨by decide, .inl (by decide)⟩, by decide, by decide, by decide⟩

/-- Line 1 alone in user mode, the lowest request above a level, and lines 5 and 1 together. -/
theorem witness_RequestLeavesIdleLoop :
    (flagIe (selfJump 0x3F00 [1]).sr = true ∧ selfJumpNext (selfJump 0x3F00 [1]) = true ∧
      level (selfJump 0x3F00 [1]).sr < highest (linesSeen (selfJump 0x3F00 [1]))) ∧
    level (selfJump 0x3F00 [0x11]).sr < highest (linesSeen (selfJump 0x3F00 [0x11])) := by decide

/-- Accesses of an instruction that meet the premises on them: one to the PC cell, and that of phase 1. -/
theorem witness_BusAccessesFollowTable :
    (Sequencer.runInstruction (user 0x3E00 [0x0800] [])).accesses =
      [{ phase := .p0, io := false, write := false, address := 0 }, { phase := .p1, io := false, write := false, address := 0x400 },
        { phase := .p2, io := false, write := true, address := 0 }] ∧ pcPhase .p0 = true ∧ pcPhase .p2 = true := by decide

/-- Entries of the control-signal table that are not "don't care", for each signal. -/
theorem witness_OutputEquationsMatchTable :
    (Sequencer.controlTable 0 true .p1).eb = some true ∧ ((Sequencer.controlTable 0 true .p0).ey).isSome = true ∧
      ((Sequencer.controlTable 0 true .p12).ex).isSome = true ∧ ((Sequencer.controlTable 0 true .p12).gy).isSome = true ∧
      ((Sequencer.controlTable 0 true .p12).gx1).isSome = true ∧ ((Sequencer.controlTable 0 true .p12).gx0).isSome = true ∧
      ((Sequencer.controlTable 0 true .p1).ga).isSome = true ∧ ((Sequencer.controlTable 0 true .p12).al4).isSome = true ∧
      ((Sequencer.controlTable 0 true .p12).al).isSome = true := by decide


end Sys2Proof.Tests
end

section
/-! The status register of one instruction: the level and the PC cell (10_state.md R25, R28), the flags (R23, R118) and the
six places that do not exist (R22). -/

namespace Sys2Proof.Machine

/-! ### The level -/

/-- `ie` is no level bit, so that turning it over leaves the level as it is (R25). -/
theorem level_toggle_ie (sr : Word) : level (sr ^^^ 0x0100) = level sr := by
  refine level_congr fun k h9 h14 => ?_
  interval_cases k <;> simp

/-- Settles O18: each clause picks one branch of the cascade that `level` is. -/
theorem levelIsHighestClearBit : Obligations.LevelIsHighestClearBit := by
  intro sr
  refine ⟨?level5, ?level4, ?level3, ?level2, ?level1, ?level0, rfl, level_toggle_ie sr⟩
  case level5 => intro h13; simp [level, h13]
  case level4 => intro h13 h12; simp [level, h13, h12]
  case level3 => intro h13 h12 h11; simp [level, h13, h12, h11]
  case level2 => intro h13 h12 h11 h10; simp [level, h13, h12, h11, h10]
  case level1 => intro h13 h12 h11 h10 h9; simp [level, h13, h12, h11, h10, h9]
  case level0 => intro h13 h12 h11 h10 h9; simp [level, h13, h12, h11, h10, h9]

/-! ### Phase 12 and the flags -/

theorem srAfterAlu_of_flags_kept {run : Bool} {f : Format} (h : run = false ∨ f.setFlags = false) (o : AluOut)
    (s : State) : srAfterAlu run f o s = s.sr := by
  rcases h with h | h <;> simp [srAfterAlu, h]

theorem srAfterAlu_of_zsrEff {f : Format} (hsf : f.setFlags = true) (hz : zsrEff f = true) (o : AluOut) (s : State) :
    srAfterAlu true f o s = withFlagsFrom s.sr o.z := by
  simp [srAfterAlu, hsf, hz]

/-- An instruction that is not executed, or has `hf`, leaves the four flags (R23). -/
theorem execute_flags_kept (alu : Word → Word → Bool → AluOut) {f : Format} {s : State}
    (h : executes f.guard s.sr = false ∨ f.setFlags = false) (k : Nat) (hk : k < 4) :
    (execute alu f s).sr[k] = s.sr[k] := by
  simp only [execute_flags alu f s k hk, srAfterAlu_of_flags_kept h, operandState_sr]

/-- An executed instruction with `sf` and `&` on its result takes the flags from the result's bits 3:0 (R118). -/
theorem execute_flags_of_zsrEff (alu : Word → Word → Bool → AluOut) {f : Format} {s : State}
    (hrun : executes f.guard s.sr = true) (hsf : f.setFlags = true) (hz : zsrEff f = true) (k : Nat) (hk : k < 4) :
    (execute alu f s).sr[k] = (execute alu f s).x[k] := by
  simp only [execute_flags alu f s k hk, hrun, srAfterAlu_of_zsrEff hsf hz, getElem_withFlagsFrom, if_pos hk, execute_x]

/-- Settles O31. -/
theorem flagsChangeOnlyUnderSetFlags : Obligations.FlagsChangeOnlyUnderSetFlags := fun i s =>
  ⟨_, exec_eq i s, execute_flags_kept (aluOf i), execute_flags_of_zsrEff (aluOf i)⟩

/-! ### The places that do not exist -/

/-- The invariant's mask, place by place: bits 15, 14 and 7:4 (R22). -/
theorem srReservedZero_iff (s : State) :
    srReservedZero s = true ↔ ∀ (k : Nat) (h : k < 16), 4 ≤ k → k < 8 ∨ 14 ≤ k → s.sr[k] = false := by
  have mask : ∀ (k : Nat) (h : k < 16), (0xC0F0 : Word)[k] = decide (4 ≤ k ∧ (k < 8 ∨ 14 ≤ k)) := by decide
  rw [srReservedZero, decide_eq_true_eq, BitVec.eq_of_getElem_eq_iff]
  refine forall₂_congr fun k h => ?_
  have zero : (0 : Word)[k] = false := BitVec.getElem_zero h
  rw [BitVec.getElem_and, mask k h, zero, Bool.and_eq_false_iff, decide_eq_false_iff_not]
  tauto

/-- No instruction changes a place of `sr` that does not exist: the flags lie below, `ie` and the levels between. -/
theorem execute_missing_bits (alu : Word → Word → Bool → AluOut) (f : Format) (s : State) (k : Nat) (h : k < 16)
    (h4 : 4 ≤ k) (hm : k < 8 ∨ 14 ≤ k) : (execute alu f s).sr[k] = s.sr[k] := by
  have no_level_bit : ∀ l : Lines, (decide (9 ≤ k) && l.getLsbD (k - 9)) = false := by
    intro l
    by_cases h9 : 9 ≤ k
    · simp [BitVec.getLsbD_of_ge l (k - 9) (by omega)]
    · simp [h9]
  rw [execute_high alu f s k h4 h, no_level_bit, if_neg fun c => by omega]
  simp

/-- An instruction that is not executed leaves `ie` (R123). -/
theorem execute_flagIe_of_not_run (alu : Word → Word → Bool → AluOut) {f : Format} {s : State}
    (h : executes f.guard s.sr = false) : flagIe (execute alu f s).sr = flagIe s.sr := by
  simp [flagIe, execute_high alu f s 8, h]

end Sys2Proof.Machine
end

section
/-! The invariant: it holds after reset (10_state.md R39), the fetch keeps it, an instruction keeps each of its three parts,
and so every step keeps it. -/

namespace Sys2Proof.Machine

theorem inv_iff (s : State) :
    Inv s = true ↔ s.mem.wf = true ∧ srReservedZero s = true ∧ latchOnlyEnabled s = true := by
  simp [Inv, and_assoc]

theorem latchOnlyEnabled_iff (s : State) : latchOnlyEnabled s = true ↔ s.latch = 0 ∨ flagIe s.sr = true := by
  simp [latchOnlyEnabled]

/-! ### Reset -/

/-- Settles O1: the level of the status word 0 is 5, and a fetch that begins in P1 is from Y. -/
theorem resetLeavesLevelFiveAtRom : Obligations.ResetLeavesLevelFiveAtRom := by
  intro m v
  have level_zero : level 0 = 5 := (levelIsHighestClearBit 0).1 rfl
  have ie_zero : flagIe 0 = false := rfl
  have fetch_from_rom : ∀ m v, fetchAddress (State.resetWith m v) = 0x8000 := fun _ _ => rfl
  exact ⟨resetWith_sr m v, resetWith_x m v, resetWith_y m v, resetWith_ir m v, resetWith_latch m v, level_zero, ie_zero,
    fetch_from_rom m v, resetWith_sr [] .any, fetch_from_rom [] .any⟩

theorem inv_resetWith {m : Memory} (v : VLogicMode) (hm : m.wf = true) : Inv (State.resetWith m v) = true :=
  (inv_iff _).mpr ⟨wf_resetWith v hm, (srReservedZero_iff _).mpr fun _ hk _ _ => BitVec.getElem_zero hk,
    (latchOnlyEnabled_iff _).mpr (.inl (resetWith_latch m v))⟩

/-- Settles O5: the reset state is the case of the empty memory. -/
theorem resetHasInvariant : Obligations.ResetHasInvariant :=
  ⟨inv_resetWith .any wf_reset, fun _ v hm => inv_resetWith v hm⟩

/-! ### The fetch -/

@[simp] theorem fetch_sr (s : State) : (fetch s).sr = s.sr := by
  unfold fetch
  split <;> rfl

@[simp] theorem fetch_latch (s : State) : (fetch s).latch = s.latch := by
  unfold fetch
  split <;> rfl

@[simp] theorem fetch_mem (s : State) : (fetch s).mem = s.mem := by
  unfold fetch
  split <;> rfl

/-- The fetch changes Y and the instruction register alone, of which the invariant does not speak. -/
theorem inv_fetch (s : State) : Inv (fetch s) = Inv s := by
  simp only [Inv, srReservedZero, latchOnlyEnabled, fetch_sr, fetch_latch, fetch_mem]

/-! ### An instruction keeps each part -/

/-- Storing the result keeps memory canonical, whatever its destination. -/
theorem wf_writeResult (run : Bool) (f : Format) {s : State} (h : s.mem.wf = true) :
    (writeResult run f s).mem.wf = true := by
  have stepped : (stepToResult s).mem.wf = true := (stepPc_changes (loadPc s)).wf h
  rw [writeResult_mem]
  cases destination f with
  | none => exact h
  | pc =>
    cases run with
    | false => exact h
    | true => exact wf_memWrite h
  | store n =>
    dsimp only
    split
    · exact wf_memWrite stepped
    · exact stepped

section
variable (alu : Word → Word → Bool → AluOut) (f : Format) {s : State}

theorem wf_execute (h : s.mem.wf = true) : (execute alu f s).mem.wf = true := by
  have operands : (operandState f s).mem.wf = true := (operandState_changes f s).wf h
  rw [execute_mem]
  exact wf_writeResult _ f operands

theorem srReservedZero_execute (h : srReservedZero s = true) : srReservedZero (execute alu f s) = true := by
  rw [srReservedZero_iff] at h ⊢
  intro k hk h4 hm
  rw [execute_missing_bits alu f s k hk h4 hm]
  exact h k hk h4 hm

/-- An executed instruction empties the latch; one that is not executed leaves `ie`, and with `ie = 0` records nothing
(R123, R254, R255). -/
theorem latchOnlyEnabled_execute (h : latchOnlyEnabled s = true) : latchOnlyEnabled (execute alu f s) = true := by
  rw [latchOnlyEnabled_iff] at h ⊢
  rw [execute_latch]
  cases hrun : executes f.guard s.sr with
  | true => exact .inl rfl
  | false =>
    rw [execute_flagIe_of_not_run alu hrun]
    cases hie : flagIe s.sr with
    | true => exact .inr rfl
    | false => simpa [hie] using h

theorem inv_execute (h : Inv s = true) : Inv (execute alu f s) = true := by
  obtain ⟨hmem, hsr, hlatch⟩ := (inv_iff s).mp h
  exact (inv_iff _).mpr
    ⟨wf_execute alu f hmem, srReservedZero_execute alu f hsr, latchOnlyEnabled_execute alu f hlatch⟩

end

/-- Settles O6: a step is the fetch and then one instruction, and both keep the invariant. -/
theorem everyStepKeepsInvariant : Obligations.EveryStepKeepsInvariant := by
  intro s t hinv hstep
  have fetched : Inv (fetch s) = true := (inv_fetch s).trans hinv
  rw [exec_next hstep]
  exact inv_execute _ _ fetched

end Sys2Proof.Machine
end

section
/-! ROM: a store to a ROM address changes nothing (20_memory.md R60), and every PC cell is in RAM, so no part of a step
changes a word of ROM. -/

namespace Sys2Proof.Machine

/-- A ROM address is not that of a PC cell. -/
theorem ne_pca_of_rom (s : State) {a : Word} (ha : isRam a = false) : a ≠ pca s := by
  rintro rfl
  simp at ha

/-- Whatever `MemWrite` is asked to do, a word of ROM reads as before. -/
theorem memRead_memWrite_of_rom (s : State) (b v : Word) {a : Word} (ha : isRam a = false) :
    memRead (memWrite s b v) a = memRead s a := by
  rw [memRead_memWrite, if_neg]
  rintro ⟨rfl, hb⟩
  simp [ha] at hb

theorem ChangesPcOnly.rom {s t : State} (h : ChangesPcOnly s t) {a : Word} (ha : isRam a = false) :
    memRead t a = memRead s a := h.read a (ne_pca_of_rom s ha)

/-- Storing the result changes no word of ROM, whatever its destination. -/
theorem memRead_writeResult_of_rom (run : Bool) (f : Format) (s : State) {a : Word} (ha : isRam a = false) :
    memRead (writeResult run f s) a = memRead s a := by
  have stepped : memRead (stepToResult s) a = memRead s a := (stepPc_changes (loadPc s)).rom ha
  rw [memRead, writeResult_mem]
  cases destination f with
  | none => rfl
  | pc =>
    cases run with
    | false => rfl
    | true => exact memRead_memWrite_of_rom s _ _ ha
  | store n =>
    dsimp only
    split
    · exact (memRead_memWrite_of_rom (stepToResult s) _ _ ha).trans stepped
    · exact stepped

/-- An instruction changes no word of ROM: the operands step the PC cell only, and the store keeps off ROM. -/
theorem memRead_execute_of_rom (alu : Word → Word → Bool → AluOut) (f : Format) (s : State) {a : Word}
    (ha : isRam a = false) : memRead (execute alu f s) a = memRead s a := by
  have operands : memRead (operandState f s) a = memRead s a := (operandState_changes f s).rom ha
  rw [memRead_of_mem_eq _ _ a (execute_mem alu f s), memRead_writeResult_of_rom _ _ _ ha, memRead_aluPhase, operands]

/-- Settles O9: a step is the fetch, which writes no memory, and then one instruction. -/
theorem romWordsNeverChange : Obligations.RomWordsNeverChange := by
  intro s t a hstep ha
  rw [exec_next hstep, memRead_execute_of_rom _ _ _ ha, memRead_of_mem_eq s _ a (fetch_mem s)]

end Sys2Proof.Machine
end

section
/-! The I/O space: what each part of an instruction adds to the history of accesses. Only phase 6 reads and only phase 17
writes (44_control_sr_io_forms.md R200, R201). -/

namespace Sys2Proof.Machine

open Claims

/-- The platform's answer depends on the I/O history and the answers it has ready, and on nothing else. -/
theorem ioAnswer_of_io_eq {s t : State} (hin : t.ioIn = s.ioIn) (htrace : t.ioTrace = s.ioTrace) (a : IoAddr) :
    ioAnswer t a = ioAnswer s a := by
  rw [ioAnswer, ioAnswer, hin, htrace]

/-! ### The read -/

theorem readAddressedX_ioTrace (f : Format) (s : State) :
    (readAddressedX f s).ioTrace =
      s.ioTrace ++ if xioEff f then [.read (ioAddr s.y) (ioAnswer s (ioAddr s.y))] else [] := by
  unfold readAddressedX
  split
  · rfl
  · simp

/-- Phases 2 to 11 read the I/O space for an addressed x operand under `@`, and access it in no other way. -/
theorem operandState_ioTrace (f : Format) (s : State) :
    (operandState f s).ioTrace = s.ioTrace ++
      if readsIo f then [.read (ioAddr (xAddress f s)) (ioAnswer s (ioAddr (xAddress f s)))] else [] := by
  obtain ⟨-, y_adds_nothing, -⟩ := readY_io f (readX f (stepPcAndY (sampleLines s)))
  rw [operandState, y_adds_nothing]
  unfold readX readsIo xAddress
  cases f.x.mode with
  | absent | immediate => simp
  | direct | indirect =>
    dsimp only
    rw [readAddressedX_ioTrace, ioAnswer_of_io_eq (s := s) rfl rfl, Bool.and_true]
    rfl

/-! ### The write -/

/-- After the operands, an instruction writes the I/O space where it stores its result under `@`, and accesses it in no
other way; what it writes stays in X. -/
theorem execute_ioTrace_of_operandState (i : Instr) (s : State) :
    (execute (aluOf i) i.format s).ioTrace = (operandState i.format s).ioTrace ++
      if stores i s && zioEff i.format then
        [.write (ioAddr (targetOf i s)) (execute (aluOf i) i.format s).x] else [] := by
  rw [execute_ioTrace, execute_x, writeResult_ioTrace]
  unfold stores isStore targetOf
  cases destination i.format with
  | none | pc => simp
  | store n =>
    simp only [Bool.and_true, storeAddress_aluPhase, aluPhase_ioTrace, aluPhase_x]
    split <;> simp

/-- Settles O34: the operands' read, if any, comes before the result's write, if any. -/
theorem ioAccessesOfInstruction : Obligations.IoAccessesOfInstruction := fun i s =>
  ⟨_, exec_eq i s, by rw [execute_ioTrace_of_operandState, operandState_ioTrace]⟩

end Sys2Proof.Machine
end

section
/-! The encoding: where each field of an instruction stands in its word (30_encoding.md R81), what the decoder makes of the
fields, and that encoder and decoder invert each other (R93, R102). -/

namespace Sys2Proof

/-! ### The codes of the fields, both ways (R83, R84, R85, R88) -/

theorem decodeMode_code (m : Mode) : decodeMode m.code[1] m.code[0] = m := by cases m <;> rfl

theorem code_decodeMode : ∀ b : BitVec 2, (decodeMode b[1] b[0]).code = b := by decide

theorem decodeResultMode_code (m : ResultMode) : decodeResultMode m.code[1] m.code[0] = m := by cases m <;> rfl

theorem code_decodeResultMode : ∀ b : BitVec 2, (decodeResultMode b[1] b[0]).code = b := by decide

theorem decodeCond_code (c : Cond) : decodeCond c.code[3] c.code[2] c.code[1] c.code[0] = c := by cases c <;> rfl

theorem code_decodeCond : ∀ b : BitVec 4, (decodeCond b[3] b[2] b[1] b[0]).code = b := by decide

/-- The four modifiers are the bits `xsr xio zsr zio` (R89). -/
theorem getElem_modifierBits (f : Format) :
    f.modifierBits[3] = f.x.sr ∧ f.modifierBits[2] = f.x.io ∧ f.modifierBits[1] = f.z.sr ∧
      f.modifierBits[0] = f.z.io := by
  unfold Format.modifierBits
  generalize f.x.sr = xsr, f.x.io = xio, f.z.sr = zsr, f.z.io = zio
  decide +revert

/-! ### Which formats have an encoding -/

/-- The modifiers exist in unconditional instructions alone (R99). -/
theorem Format.wellFormed_iff (f : Format) :
    f.wellFormed = true ↔
      ∀ c, f.guard = .cond c → f.x.sr = false ∧ f.x.io = false ∧ f.z.sr = false ∧ f.z.io = false := by
  unfold Format.wellFormed Format.errors
  cases f.guard with
  | tr => simp
  | cond c => simp [List.isEmpty_iff]

theorem InstrWords.wellFormed_iff (p : InstrWords) :
    p.wellFormed = true ↔
      p.instr.format.wellFormed = true ∧ p.operands.length = p.instr.format.operandCount := by
  simp [InstrWords.wellFormed, InstrWords.errors, Format.wellFormed, List.isEmpty_iff]

/-! ### The bits of an encoded word -/

/-- Every bit of an instruction word, field by field (R81). -/
theorem getElem_encodeFields (f : Format) (op : BitVec 4) (k : Nat) (hk : k < 16) :
    (encodeFields f op)[k] =
      if k < 4 then op.getLsbD k
      else if k < 6 then f.x.mode.code.getLsbD (k - 4)
      else if k < 8 then f.y.code.getLsbD (k - 6)
      else if k < 10 then f.z.mode.code.getLsbD (k - 8)
      else if k = 10 then f.setFlags
      else if k = 11 then f.guard.bit
      else f.topBits.getLsbD (k - 12) := by
  unfold encodeFields
  interval_cases k <;> simp [placeField]

/-- The decoder reads back the format of an encoded word. -/
theorem decodeFormat_encodeFields {f : Format} (h : f.wellFormed = true) (op : BitVec 4) :
    decodeFormat (encodeFields f op) = f := by
  have no_modifiers := f.wellFormed_iff.mp h
  obtain ⟨xsr, xio, zsr, zio⟩ := getElem_modifierBits f
  obtain ⟨guard, setFlags, ⟨_, _, xmode⟩, y, ⟨_, _, zmode⟩⟩ := f
  have hx := decodeMode_code xmode
  have hy := decodeMode_code y
  have hz := decodeResultMode_code zmode
  cases guard with
  | tr =>
    simp [decodeFormat, getElem_encodeFields, Guard.bit, Format.topBits, hx, hy, hz, xsr, xio, zsr, zio]
  | cond c =>
    have hc := decodeCond_code c
    obtain ⟨rfl, rfl, rfl, rfl⟩ := no_modifiers c rfl
    simp [decodeFormat, getElem_encodeFields, Guard.bit, Format.topBits, hx, hy, hz, hc]

/-! ### The fields of a decoded word -/

section
variable (w : Word)

theorem decodeFormat_x_code : (decodeFormat w).x.mode.code = w.extractLsb' 4 2 := by
  simpa [decodeFormat] using code_decodeMode (w.extractLsb' 4 2)

theorem decodeFormat_y_code : (decodeFormat w).y.code = w.extractLsb' 6 2 := by
  simpa [decodeFormat] using code_decodeMode (w.extractLsb' 6 2)

theorem decodeFormat_z_code : (decodeFormat w).z.mode.code = w.extractLsb' 8 2 := by
  simpa [decodeFormat] using code_decodeResultMode (w.extractLsb' 8 2)

theorem decodeFormat_conditional (h : w[11] = false) :
    (∃ c, (decodeFormat w).guard = .cond c ∧ c.code = w.extractLsb' 12 4) ∧
      (decodeFormat w).x.sr = false ∧ (decodeFormat w).x.io = false ∧
      (decodeFormat w).z.sr = false ∧ (decodeFormat w).z.io = false := by
  have code := code_decodeCond (w.extractLsb' 12 4)
  simp only [BitVec.getElem_extractLsb'] at code
  simpa [decodeFormat, h] using code

theorem decodeFormat_unconditional (h : w[11] = true) :
    (decodeFormat w).guard = .tr ∧ (decodeFormat w).x.sr = w[15] ∧ (decodeFormat w).x.io = w[14] ∧
      (decodeFormat w).z.sr = w[13] ∧ (decodeFormat w).z.io = w[12] := by
  simp [decodeFormat, h]

/-- Bit 11 is `BED` (R87). -/
theorem decodeFormat_guard_bit : (decodeFormat w).guard.bit = w[11] := by
  cases h : w[11] <;> simp [decodeFormat, Guard.bit, h]

/-- Bits 15:12, whether they are a condition or the modifiers. -/
theorem decodeFormat_topBits : (decodeFormat w).topBits = w.extractLsb' 12 4 := by
  cases h : w[11]
  case false =>
    obtain ⟨⟨c, guard, code⟩, -⟩ := decodeFormat_conditional w h
    rw [Format.topBits, guard, ← code]
  case true =>
    obtain ⟨guard, xsr, xio, zsr, zio⟩ := decodeFormat_unconditional w h
    obtain ⟨b3, b2, b1, b0⟩ := getElem_modifierBits (decodeFormat w)
    rw [Format.topBits, guard]
    ext k hk
    interval_cases k <;> simp [b0, b1, b2, b3, xsr, xio, zsr, zio]

/-- A decoded format has an encoding: under `BED = 0` its modifiers are off (R89). -/
theorem decodeFormat_wellFormed : (decodeFormat w).wellFormed = true := by
  rw [Format.wellFormed_iff]
  intro c guard
  cases h : w[11]
  case false => exact (decodeFormat_conditional w h).2
  case true => simp [(decodeFormat_unconditional w h).1] at guard

/-- Every word is its own fields put together again. -/
theorem encodeFields_decodeFormat : encodeFields (decodeFormat w) (w.extractLsb' 0 4) = w := by
  ext k hk
  rw [getElem_encodeFields, decodeFormat_x_code, decodeFormat_y_code, decodeFormat_z_code, decodeFormat_guard_bit,
    decodeFormat_topBits]
  interval_cases k <;> simp [decodeFormat]

theorem decodeWord_format : (decodeWord w).format = decodeFormat w := by
  unfold decodeWord
  split <;> rfl

end

/-! ### The operation (R82) -/

/-- A word with an instruction's fields decodes to that instruction, `lsl` as `asl`. -/
theorem decodeWord_of_fields {w : Word} {i : Instr} (hop : w.extractLsb' 0 4 = i.opcode)
    (hf : decodeFormat w = i.format) : decodeWord w = i.canonical := by
  have bit : ∀ (k : Nat) (h : k < 4), w[k] = i.opcode[k] := by
    intro k h
    simp [← hop, BitVec.getLsbD_eq_getElem (show k < 16 by omega)]
  unfold decodeWord
  rw [bit 0 (by omega), bit 1 (by omega), bit 2 (by omega), bit 3 (by omega), hf]
  cases i <;> simp [Instr.opcode, Instr.format, Instr.canonical]

/-- Each row of the decoder's table is the one whose opcode has the row's bits. -/
theorem decodeWord_opcode (w : Word) : (decodeWord w).opcode = w.extractLsb' 0 4 := by
  ext k hk
  unfold decodeWord
  split
  all_goals
    rename_i h1 h0 h3 h2
    interval_cases k <;> simp [Instr.opcode, h0, h1, h2, h3]

/-! ### Encoding and decoding invert each other -/

theorem encode_decodeWord (w : Word) : encode (decodeWord w) = w := by
  rw [encode, decodeWord_format, decodeWord_opcode, encodeFields_decodeFormat]

theorem decodeFormat_encode {i : Instr} (h : i.wellFormed = true) : decodeFormat (encode i) = i.format :=
  decodeFormat_encodeFields h i.opcode

theorem decodeWord_encode {i : Instr} (h : i.wellFormed = true) : decodeWord (encode i) = i.canonical :=
  decodeWord_of_fields (encodeFields_op i.format i.opcode) (decodeFormat_encode h)

/-- An instruction word followed by its operand words is read whole, and nothing after it is touched (R90). -/
theorem decode_append {w : Word} {operands : List Word} (h : operands.length = (decodeFormat w).operandCount)
    (rest : List Word) :
    decode (w :: operands ++ rest) = .ok { code := { instr := decodeWord w, operands := operands }, rest := rest } := by
  simp [decode, ← h]

/-- Settles O10: the word's format gives back how many operand words follow it, its fields give back the instruction. -/
theorem decodeInvertsEncode : Obligations.DecodeInvertsEncode := by
  intro p rest wf
  obtain ⟨has_encoding, count⟩ := p.wellFormed_iff.mp wf
  rw [← decodeFormat_encode has_encoding] at count
  rw [encodeWords, decode_append count, decodeWord_encode has_encoding]

/-- Settles O11: every field of a word is the code of what it decodes to. -/
theorem everyWordIsAnInstruction : Obligations.EveryWordIsAnInstruction := by
  intro w
  refine ⟨encode_decodeWord w, ?_⟩
  rw [Instr.wellFormed, decodeWord_format]
  exact decodeFormat_wellFormed w

/-! ### The instruction word and its fields -/

/-- Settles O12, word by word. -/
theorem sampleWordsDecode : Obligations.SampleWordsDecode :=
  ⟨rfl, rfl, rfl, rfl, rfl, rfl, rfl, rfl⟩

/-- Settles O13: each clause names the instruction with the word's fields, `asl` for the opcode `$B`. -/
theorem operationFieldSelectsInstruction : Obligations.OperationFieldSelectsInstruction := by
  intro w f op
  have selects : ∀ i : Instr, i.format = f → op = i.opcode → decodeWord w = i.canonical :=
    fun i hf hop => decodeWord_of_fields hop hf.symm
  exact ⟨selects (.add f) rfl, selects (.sub f) rfl, selects (.addc f) rfl, selects (.subc f) rfl,
    selects (.nor f) rfl, selects (.and f) rfl, selects (.eor f) rfl, selects (.or f) rfl,
    selects (.ror f) rfl, selects (.rorc f) rfl, selects (.asr f) rfl, selects (.lsr f) rfl,
    selects (.rol f) rfl, selects (.rolc f) rfl, fun h => ⟨selects (.lsl f) rfl h, h.symm⟩, selects (.bswp f) rfl⟩

/-- Settles O14: the two spellings have one format, one opcode and one ALU function. -/
theorem lslIsAsl : Obligations.LslIsAsl := fun _ _ => ⟨rfl, rfl⟩

/-- Settles O16. -/
theorem instructionWordFields : Obligations.InstructionWordFields := by
  intro w
  rw [decodeWord_format]
  exact ⟨decodeFormat_x_code w, decodeFormat_y_code w, decodeFormat_z_code w, decodeWord_opcode w, rfl,
    decodeFormat_conditional w, decodeFormat_unconditional w⟩

end Sys2Proof
end

section
/-! The operands and the result address of every form (30_encoding.md R83 to R85, R90; 40_execution_sequence.md R115 to R117,
R120). Until the result is stored, memory is as it was when the instruction began, but for the current PC cell, which has
been stepped: `MemoryPast` says so of a state, and a chain of reads in such a state is `Claims.lastRead`. -/

namespace Sys2Proof.Machine

open Claims

/-! ### Memory with the PC cell stepped -/

/-- The memory of `t` is that of `s`, but for the current PC cell of `s`, which holds `cell`. -/
def MemoryPast (s : State) (cell : Word) (t : State) : Prop := ∀ a, memRead t a = readPast s cell a

theorem MemoryPast.of_mem_eq {s t u : State} {cell : Word} (h : MemoryPast s cell t) (hm : u.mem = t.mem) :
    MemoryPast s cell u := fun a => (memRead_of_mem_eq t u a hm).trans (h a)

theorem MemoryPast.of_changes {s t : State} {cell : Word} (h : ChangesPcOnly s t) (hcell : memRead t (pca s) = cell) :
    MemoryPast s cell t := by
  intro a
  unfold readPast
  split
  · rename_i ha
    rw [ha, hcell]
  · exact h.read a ‹_›

/-- Stepping the PC puts the new value into the cell, whatever it held. -/
theorem MemoryPast.stepPc {s t : State} {cell : Word} (h : MemoryPast s cell t) (hp : pca t = pca s) :
    MemoryPast s (t.y + 1) (stepPc t) := by
  intro a
  rw [memRead_stepPc, hp, h a]
  unfold readPast
  split <;> rfl

/-- Following Y, `n` times, is a chain of reads. -/
theorem MemoryPast.followAddress_y {s t : State} {cell : Word} (h : MemoryPast s cell t) (n : Nat) :
    (followAddress n t).y = lastRead s cell n t.y := by
  induction n generalizing t with
  | zero => rfl
  | succ n ih =>
    have past : MemoryPast s cell (followY t) := h.of_mem_eq rfl
    rw [followAddress, ih past, followY_y, h t.y]
    rfl

/-- The word that the last of `n + 1` reads gives is the word at the address that the first `n` give. -/
theorem lastRead_succ (s : State) (cell : Word) (n : Nat) (a : Word) :
    lastRead s cell (n + 1) a = readPast s cell (lastRead s cell n a) := by
  induction n generalizing a with
  | zero => rfl
  | succ n ih => exact ih (readPast s cell a)

/-! ### Phase 2 -/

/-- After phase 2: the request lines sampled, Y and the PC cell past the instruction word. -/
def begunState (s : State) : State := stepPcAndY (sampleLines s)

theorem operandState_eq (f : Format) (s : State) : operandState f s = readY f (readX f (begunState s)) := rfl

theorem begunState_y (s : State) : (begunState s).y = s.y + 1 := rfl

theorem pca_begunState (s : State) : pca (begunState s) = pca s := rfl

theorem memRead_begunState_pca (s : State) : memRead (begunState s) (pca (begunState s)) = (begunState s).y := by
  simp [begunState, memRead_stepPcAndY]

theorem begunState_changes (s : State) : ChangesPcOnly s (begunState s) :=
  ⟨fun b hb => (stepPcAndY_changes (sampleLines s)).read b hb, fun w => wf_memWrite w⟩

/-! ### The x operand -/

/-- After phase 3: the cell past the x operand word, Y at it. -/
theorem memoryPast_stepPc_begunState (s : State) : MemoryPast s (s.y + 2) (stepPc (begunState s)) := by
  have h := (MemoryPast.of_changes (begunState_changes s) rfl).stepPc rfl
  rwa [begunState_y, BitVec.add_assoc] at h

/-- The address in Y in phase 6 is the end of the chain of reads before it. -/
theorem xAddress_eq_lastRead (f : Format) (s : State) (h : f.x.mode = .direct ∨ f.x.mode = .indirect) :
    xAddress f s = lastRead s (s.y + 2) (wordsRead f.x.mode - 1) (s.y + 1) := by
  have chain := (memoryPast_stepPc_begunState s).followAddress_y
  unfold xAddress
  rcases h with h | h <;> rw [h]
  · exact chain 1
  · exact chain 2

/-- Phase 6, `n` reads after phase 3: from memory one more read of the chain, or the platform's answer for the address that
the chain has led to (R115). -/
theorem readAddressedX_followAddress (f : Format) (s : State) (n : Nat) :
    (readAddressedX f (followAddress n (stepPc (begunState s)))).x =
      if xioEff f then ioAnswer s (ioAddr (lastRead s (s.y + 2) n (s.y + 1)))
      else lastRead s (s.y + 2) (n + 1) (s.y + 1) := by
  have past := memoryPast_stepPc_begunState s
  obtain ⟨hmem, -, htrace, hin⟩ := followAddress_data n (stepPc (begunState s))
  have hy : (followAddress n (stepPc (begunState s))).y = lastRead s (s.y + 2) n (s.y + 1) := past.followAddress_y n
  unfold readAddressedX
  split
  · rw [loadXFromIo_x, hy, ioAnswer_of_io_eq (s := s) hin htrace]
  · rw [loadX_x, past.of_mem_eq hmem, hy, lastRead_succ]

/-- X when the operands have been read. -/
theorem operandState_x (f : Format) (s : State) (h : f.x.mode ≠ .absent) :
    (operandState f s).x = xOperand f s := by
  obtain ⟨x_stays, -⟩ := readY_io f (readX f (begunState s))
  rw [operandState_eq, x_stays]
  unfold readX xOperand
  cases hm : f.x.mode with
  | absent => exact absurd hm h
  | immediate => exact memoryPast_stepPc_begunState s _
  | direct => exact readAddressedX_followAddress f s 1
  | indirect => exact readAddressedX_followAddress f s 2

theorem xv_of_plain (f : Format) (s : State) (h : xsrEff f = false) : xv f s = xOperand f s := by
  simp only [xv, xInput, h, Bool.false_eq_true, if_false, plainX]
  split
  · rename_i hm
    simp [xOperand, hm]
  all_goals exact operandState_x f s (by simp [*])

theorem xv_of_sr_absent (f : Format) (s : State) (h : xsrEff f = true) (hm : f.x.mode = .absent) :
    xv f s = s.sr &&& 0x3F0F := by
  simp [xv, xInput, h, unmergedX, hm, srRead, srImplemented]

theorem xv_of_sr (f : Format) (s : State) (h : xsrEff f = true) (hm : f.x.mode ≠ .absent) :
    xv f s = (xOperand f s &&& 0xC0F0) ||| (s.sr &&& 0x3F0F) := by
  have merged : unmergedX f (operandState f s) = xOperand f s &&& 0xC0F0 := by
    rw [← operandState_x f s hm]
    unfold unmergedX
    split
    · exact absurd ‹_› hm
    all_goals rfl
  rw [xv, xInput, if_pos h, merged, operandState_sr]
  rfl

/-! ### The y operand -/

/-- After the x operand the cell holds the address of the y operand word. -/
theorem memoryPast_readX (f : Format) (s : State) :
    MemoryPast s (yWordAddress f s) (readX f (begunState s)) :=
  .of_changes ((begunState_changes s).trans (readX_changes f _) (pca_begunState s))
    (memRead_readX_pca f (begunState s) (memRead_begunState_pca s))

/-- Phases 7 and 8: Y at the y operand word, the cell past it, or still at it under a result `=` (R116). -/
theorem stepPastY_readX (f : Format) (s : State) :
    (stepPastY f (reloadPc f (readX f (begunState s)))).y = yWordAddress f s ∧
      MemoryPast s (yWordAddress f s + if f.z.mode = .same then 0 else 1)
        (stepPastY f (reloadPc f (readX f (begunState s)))) := by
  have past : MemoryPast s (yWordAddress f s) (reloadPc f (readX f (begunState s))) :=
    (memoryPast_readX f s).of_mem_eq (reloadPc_mem f _)
  have hp : pca (reloadPc f (readX f (begunState s))) = pca s :=
    ((readX_keeps f _).trans (reloadPc_keeps f _)).pca
  have hy : (reloadPc f (readX f (begunState s))).y = yWordAddress f s :=
    (reloadPc_y f _ (memRead_begunState_pca s)).trans (memRead_readX_pca f _ (memRead_begunState_pca s))
  unfold stepPastY
  split <;> rename_i hm
  · simpa [hm] using ⟨hy, past⟩
  all_goals
    have stepped := past.stepPc hp
    rw [hy] at stepped
    simpa [hm] using ⟨hy, stepped⟩

/-- The ALU's y input: 0, or the end of a chain of reads from the y operand word on. -/
theorem yv_eq (f : Format) (s : State) :
    yv f s = if f.y = .absent then 0
      else lastRead s (yWordAddress f s + (if f.z.mode = .same then 0 else 1)) (wordsRead f.y) (yWordAddress f s) := by
  obtain ⟨hy, past⟩ := stepPastY_readX f s
  have chain := past.followAddress_y
  rw [hy] at chain
  rw [yv, yInput, operandState_eq]
  unfold readY
  cases f.y with
  | absent => rfl
  | immediate => exact chain 1
  | direct => exact chain 2
  | indirect => exact chain 3

/-! ### The address of the result -/

/-- When the operands have been read the cell holds the address of the operand word that names the result. -/
theorem memoryPast_operandState (f : Format) (s : State) :
    MemoryPast s (resultWordAddress f s) (operandState f s) := by
  refine .of_changes (operandState_changes f s) ?_
  rw [memRead_operandState_pca]
  rfl

theorem resultWordAddress_eq (f : Format) (s : State) :
    resultWordAddress f s =
      s.y + BitVec.ofNat 16 (1 + f.x.mode.words + if f.z.mode = .same then 0 else f.y.words) := by
  unfold resultWordAddress yWordAddress
  split <;> simp [BitVec.ofNat_add, BitVec.add_assoc]

/-- In an instruction of class S the operand word that names the result is the last one: the z word, or under `=` the y word,
which is there (R90, R119). -/
theorem words_of_store {f : Format} {n : Nat} (h : destination f = .store n) :
    (if f.z.mode = .same then 0 else f.y.words) + 1 = f.y.words + f.z.mode.words := by
  unfold destination at h
  cases hz : f.z.mode with
  | none => simp [hz] at h
  | same =>
    cases hy : f.y with
    | absent => simp [hz, hy] at h
    | immediate | direct | indirect => rfl
  | direct | indirect => rfl

/-- The address after the operand word that names the result is the address after the whole instruction. -/
theorem resultWordAddress_succ (f : Format) (s : State) {n : Nat} (h : destination f = .store n) :
    resultWordAddress f s + 1 = s.y + BitVec.ofNat 16 f.length := by
  have length : f.length = 1 + f.x.mode.words + (if f.z.mode = .same then 0 else f.y.words) + 1 := by
    have last := words_of_store h
    unfold Format.length Format.operandCount
    omega
  rw [resultWordAddress_eq, length, BitVec.ofNat_add _ 1, ← BitVec.add_assoc]
  rfl

/-- Phases 13 to 16. -/
theorem storeAddress_operandState (f : Format) (s : State) (n : Nat) :
    storeAddress n (operandState f s) = lastRead s (resultWordAddress f s + 1) n (resultWordAddress f s) := by
  have past := memoryPast_operandState f s
  have hp := pca_operandState f s
  have hy : (loadPc (operandState f s)).y = resultWordAddress f s := by
    rw [loadPc_y, hp, past, readPast, if_pos rfl]
  have loaded : MemoryPast s (resultWordAddress f s) (loadPc (operandState f s)) := past.of_mem_eq rfl
  have stepped := loaded.stepPc hp
  have chain := stepped.followAddress_y n
  rwa [stepPc_y, hy] at chain

theorem targetOf_eq_lastRead (i : Instr) (s : State) (n : Nat) (h : destination i.format = .store n) :
    targetOf i s = lastRead s (s.y + BitVec.ofNat 16 i.format.length) n (resultWordAddress i.format s) := by
  rw [targetOf, h, ← resultWordAddress_succ i.format s h]
  exact storeAddress_operandState i.format s n

/-- Settles O20: X and Y follow chains of reads that begin at the operand words, in memory with the PC cell stepped. -/
theorem operandsByMode : Obligations.OperandsByMode := fun i s =>
  ⟨xv_of_plain i.format s, xv_of_sr_absent i.format s, xv_of_sr i.format s, xAddress_eq_lastRead i.format s,
    yv_eq i.format s, targetOf_eq_lastRead i s⟩

end Sys2Proof.Machine
end

section
/-! The fetch (40_execution_sequence.md R110, R114): what it loads, and the words that are placed where it reads. -/

namespace Sys2Proof.Machine

open Claims

theorem phase_eq_p0_or_p1 (s : State) : s.phase = .p0 ∨ s.phase = .p1 := by
  cases s.phase <;> simp

theorem fetchAddress_of_p0 {s : State} (h : s.phase = .p0) : fetchAddress s = memRead s (pca s) := by
  rw [fetchAddress, h]

theorem fetchAddress_of_p1 {s : State} (h : s.phase = .p1) : fetchAddress s = s.y := by
  rw [fetchAddress, h]

/-- Phases 0 and 1 together: the fetch address into Y, the word there into the instruction register. -/
theorem fetch_eq (s : State) :
    fetch s = { s with y := fetchAddress s, ir := memRead s (fetchAddress s) } := by
  unfold fetch
  split
  · rw [fetchAddress_of_p0 ‹_›]
    rfl
  · rw [fetchAddress_of_p1 ‹_›]
    rfl

/-- Settles O8. -/
theorem stepRunsDecodedInstruction : Obligations.StepRunsDecodedInstruction := by
  intro s
  rw [step, fetch_eq]

/-! ### Words placed for the fetch (log entry 8) -/

/-- A read after a load: the loaded word that falls on the address, counted round the top of memory, and what was there
before where none does. -/
theorem Memory.read_load (m : Memory) (a b : Word) (ws : List Word) (h : ws.length ≤ 2 ^ 16) :
    (m.load a ws).read b.toNat = ws.getD (b - a).toNat (m.read b.toNat) := by
  induction ws generalizing m a with
  | nil => rfl
  | cons v vs ih =>
    have hvs : vs.length < 2 ^ 16 := h
    rw [Memory.load, ih _ _ hvs.le, Memory.read_write]
    by_cases hb : b = a
    · subst hb
      have last : (b - (b + 1)).toNat = 2 ^ 16 - 1 := by bv_omega
      have beyond : vs.length ≤ (b - (b + 1)).toNat := by omega
      rw [List.getD_eq_default _ _ beyond, if_pos rfl, BitVec.sub_self]
      rfl
    · have hne : b.toNat ≠ a.toNat := fun e => hb (BitVec.eq_of_toNat_eq e)
      have next : (b - a).toNat = (b - (a + 1)).toNat + 1 := by bv_omega
      rw [if_neg hne, next, List.getD_cons_succ]

/-- The window of four words that begins at an address does not cover the cell. -/
theorem windowHits_eq_false_iff (a cell : Word) : windowHits a cell = false ↔ 4 ≤ (cell - a).toNat := by
  simp [windowHits]

/-- No PC cell lies in the window at the base of ROM. -/
theorem windowHits_rom (s : State) : windowHits 0x8000 (pca s) = false := by
  have cell : (pca s).toNat ≤ 5 := (pcCell_toNat s.sr).trans_le (level_le s.sr)
  rw [windowHits_eq_false_iff]
  bv_omega

/-- A load of at most four words leaves a cell that its window does not cover. -/
theorem Memory.read_load_of_windowHits (m : Memory) {a cell : Word} {ws : List Word} (hw : windowHits a cell = false)
    (hlen : ws.length ≤ 4) : (m.load a ws).read cell.toNat = m.read cell.toNat := by
  have beyond : ws.length ≤ (cell - a).toNat := hlen.trans ((windowHits_eq_false_iff a cell).mp hw)
  rw [Memory.read_load m a cell ws (by omega), List.getD_eq_default _ _ beyond]

/-- Placing words loads them at the address from which the next step fetches, clear of the current PC cell. -/
theorem placeWords_spec (s : State) {ws : List Word} (hlen : ws.length ≤ 4) :
    windowHits (fetchAddress (placeWords ws s)) (pca (placeWords ws s)) = false ∧
      ∃ m : Memory, (placeWords ws s).mem = m.load (fetchAddress (placeWords ws s)) ws := by
  suffices h : ∃ (a : Word) (m : Memory), fetchAddress (placeWords ws s) = a ∧ windowHits a (pca s) = false ∧
      pca (placeWords ws s) = pca s ∧ (placeWords ws s).mem = m.load a ws by
    obtain ⟨a, m, hfetch, hw, hp, hmem⟩ := h
    exact ⟨by rw [hfetch, hp, hw], m, by rw [hfetch, hmem]⟩
  unfold placeWords
  by_cases hits : windowHits (fetchAddress s) (pca s) = true
  · rw [if_pos hits]
    have clear := windowHits_rom s
    split <;> rename_i hphase
    · refine ⟨0x8000, s.mem.write (pca s).toNat 0x8000, ?_, clear, rfl, rfl⟩
      have cell := (s.mem.write (pca s).toNat 0x8000).read_load_of_windowHits clear hlen
      rw [Memory.read_write, if_pos rfl] at cell
      simp only [fetchAddress, hphase]
      exact cell
    · refine ⟨0x8000, s.mem, ?_, clear, rfl, rfl⟩
      simp only [fetchAddress, hphase]
  · rw [if_neg hits]
    have clear : windowHits (fetchAddress s) (pca s) = false := by simpa using hits
    refine ⟨fetchAddress s, s.mem, ?_, clear, rfl, rfl⟩
    have cell := s.mem.read_load_of_windowHits clear hlen
    obtain hphase | hphase := phase_eq_p0_or_p1 s
    · simp only [fetchAddress, hphase] at cell ⊢
      exact cell
    · simp only [fetchAddress, hphase]

/-- Settles O15: the words are loaded at the fetch address, and a window clear of the cell is not met by it. -/
theorem placedWordIsFetched : Obligations.PlacedWordIsFetched := by
  intro s nbits w t a
  obtain ⟨clear, m, hmem⟩ := placeWords_spec s (ws := tableWords nbits w) (by simp [tableWords])
  change windowHits a (pca t) = false at clear
  change t.mem = m.load a (tableWords nbits w) at hmem
  have offset : ∀ k : Word, a + k - a = k := by intro k; bv_omega
  have placed : ∀ k : Word, memRead t (a + k) = (tableWords nbits w).getD k.toNat (m.read (a + k).toNat) := by
    intro k
    rw [memRead, hmem, Memory.read_load _ _ _ _ (by simp [tableWords]), offset]
  have zero : a + 0 = a := BitVec.add_zero a
  have placed_zero := placed 0
  rw [zero] at placed_zero
  have off_cell : ∀ k : Word, k.toNat < 4 → pca t ≠ a + k := by
    intro k hk hcell
    rw [windowHits_eq_false_iff, hcell, offset] at clear
    omega
  have off_cell_zero := off_cell 0 (by decide)
  rw [zero] at off_cell_zero
  refine ⟨?_, ?_, off_cell_zero, off_cell 1 (by decide), off_cell 2 (by decide), off_cell 3 (by decide)⟩
  · rw [placed_zero, placed 1, placed 2, placed 3]
    rfl
  · rw [fetch_eq]
    exact placed_zero

end Sys2Proof.Machine
end

section
/-! The condition functions (40_execution_sequence.md R112, R113). -/

namespace Sys2Proof.Machine

/-! ### The codes pair up -/

/-- The condition that holds exactly when another does not: that of the other code of its pair (R113). -/
def oppositeCond : Cond → Cond
  | .me => .pe | .pe => .me
  | .hi => .ls | .ls => .hi
  | .cc => .cs | .cs => .cc
  | .ne => .eq | .eq => .ne
  | .vc => .vs | .vs => .vc
  | .pl => .mi | .mi => .pl
  | .ge => .lt | .lt => .ge
  | .gt => .le | .le => .gt

theorem decodeCond_xor_one : ∀ cc : BitVec 4,
    decodeCond (cc ^^^ 1)[3] (cc ^^^ 1)[2] (cc ^^^ 1)[1] (cc ^^^ 1)[0] =
      oppositeCond (decodeCond cc[3] cc[2] cc[1] cc[0]) := by decide

theorem condHolds_oppositeCond (c : Cond) (sr : Word) : condHolds (oppositeCond c) sr = !condHolds c sr := by
  unfold condHolds
  generalize flagC sr = C, flagZ sr = Z, flagN sr = N, flagV sr = V
  cases c <;> revert C Z N V <;> decide

/-! ### No code is "always" or "never" -/

/-- No flag; C, Z and N; V alone. -/
def flagSamples : List Word := [0x0000, 0x0007, 0x0008]

/-- Each condition takes both values, already on three settings of the flags. -/
theorem condHolds_takes_both (c : Cond) (b : Bool) : ∃ sr ∈ flagSamples, condHolds c sr = b := by
  cases c <;> cases b <;> simp [flagSamples, condHolds, flagC, flagZ, flagN, flagV]

/-- `ge` and its opposite compare N with V (R113). -/
theorem condHolds_ge (sr : Word) : condHolds .ge sr = (flagN sr == flagV sr) := by
  unfold condHolds
  cases flagN sr <;> cases flagV sr <;> rfl

theorem condHolds_gt (sr : Word) : condHolds .gt sr = ((flagN sr == flagV sr) && !flagZ sr) := by
  unfold condHolds
  cases flagN sr <;> cases flagV sr <;> simp

/-! ### The execution predicate -/

/-- An instruction word with `BED = 1` is executed whatever the flags are (R87, R112). -/
theorem executes_of_bed {w : Word} (h : w[11] = true) (sr : Word) :
    executes (decodeWord w).format.guard sr = true := by
  obtain ⟨hguard, -⟩ := decodeFormat_unconditional w h
  rw [decodeWord_format, hguard]
  rfl

/-- Settles O17: the functions without V are the model's own; `lt` and `le` are the opposites of `ge` and `gt`. -/
theorem conditionFunctions : Obligations.ConditionFunctions := by
  refine ⟨fun cc => ?takes_both, fun w sr h => executes_of_bed h sr, fun sr => ?functions⟩
  case takes_both =>
    have both := condHolds_takes_both (decodeCond cc[3] cc[2] cc[1] cc[0])
    exact ⟨(both true).imp fun _ h => h.2, (both false).imp fun _ h => h.2⟩
  case functions =>
    have lt : condHolds .lt sr = (flagN sr != flagV sr) := by
      rw [show Cond.lt = oppositeCond .ge from rfl, condHolds_oppositeCond, condHolds_ge]
      rfl
    have le : condHolds .le sr = (flagZ sr || (flagN sr != flagV sr)) := by
      rw [show Cond.le = oppositeCond .gt from rfl, condHolds_oppositeCond, condHolds_gt, Bool.not_and, Bool.not_not,
        Bool.or_comm]
      rfl
    refine ⟨rfl, rfl, rfl, rfl, rfl, rfl, rfl, rfl, rfl, rfl, rfl, rfl, condHolds_ge sr, lt, condHolds_gt sr, le,
      fun cc => ?_⟩
    exact (congrArg (condHolds · sr) (decodeCond_xor_one cc)).trans (condHolds_oppositeCond _ sr)

end Sys2Proof.Machine
end

section
/-! The ALU's inputs as the blocks XMUX and YGATE put them out (48_sequencer_and_datapath.md R212, R222, R223). -/

namespace Sys2Proof.Machine

open Sequencer

/-! ### The select functions in terms of the format -/

/-- `f3` is 0 exactly under `&` on the x operand. -/
theorem f3_eq (w : Word) : f3 w = !xsrEff (decodeFormat w) := by
  unfold f3 xsrEff decodeFormat
  cases w[11] <;> cases w[15] <;> rfl

/-- `f4` is 1 exactly if there is an x operand. -/
theorem f4_eq (w : Word) : f4 w = decide ((decodeFormat w).x.mode ≠ .absent) := mode_present _ _

/-- `f2` is 1 exactly if there is a y operand. -/
theorem f2_eq (w : Word) : f2 w = decide ((decodeFormat w).y ≠ .absent) := mode_present _ _

/-! ### The rows of XMUX under `&` -/

theorem xmux_sr (a b : Word) : xmux false false a b = srRead a := by
  unfold xmux srRead srImplemented
  ext k hk
  interval_cases k <;> simp [placeField]

theorem xmux_merged (a b : Word) : xmux false true a b = (b &&& 0xC0F0) ||| srRead a := by
  unfold xmux srRead srImplemented
  ext k hk
  interval_cases k <;> simp [placeField]

/-! ### The inputs -/

/-- The four rows of XMUX are an x operand, absent or not, with `&` and without. -/
theorem xInput_eq_xmux (w : Word) (s : State) : xInput (decodeFormat w) s = xmux (f3 w) (f4 w) s.sr s.x := by
  rw [f3_eq, f4_eq, xInput]
  cases xsrEff (decodeFormat w) with
  | false => cases hm : (decodeFormat w).x.mode <;> simp [plainX, hm, xmux]
  | true =>
    cases hm : (decodeFormat w).x.mode with
    | absent => simp [unmergedX, hm, xmux_sr]
    | immediate | direct | indirect => simp [unmergedX, hm, xmux_merged]

theorem yInput_eq_ygate (w : Word) (s : State) : yInput (decodeFormat w) s = ygate (f2 w) s.y := by
  rw [f2_eq]
  cases hm : (decodeFormat w).y <;> simp [yInput, hm, ygate]

/-- Settles O19. -/
theorem aluInputsAreXmuxAndYgate : Obligations.AluInputsAreXmuxAndYgate := fun w s =>
  ⟨xInput_eq_xmux w s, yInput_eq_ygate w s⟩

end Sys2Proof.Machine
end

section
/-! Memory after one instruction (40_execution_sequence.md R119 to R125): the PC cell is stepped past the instruction's words,
the result goes where the destination says, and every other word stays. -/

namespace Sys2Proof.Machine

open Claims

/-! ### Before the result is stored -/

/-- Where there is no operand word for the result, the words are those of the operands. -/
theorem resultWordAddress_of_not_store (f : Format) (s : State) (h : isStore f = false) :
    resultWordAddress f s = s.y + BitVec.ofNat 16 f.length := by
  have words : f.length = 1 + f.x.mode.words + if f.z.mode = .same then 0 else f.y.words := by
    unfold Format.length Format.operandCount
    unfold isStore destination at h
    cases hz : f.z.mode with
    | none => simp [ResultMode.words, Nat.add_assoc]
    | same => cases hy : f.y <;> simp [hz, hy, ResultMode.words, Mode.words] at h ⊢
    | direct | indirect => simp [hz] at h
  rw [resultWordAddress_eq, words]

theorem isStore_of_destination {f : Format} {n : Nat} (h : destination f = .store n) : isStore f = true := by
  rw [isStore, h]

/-- Phases 13 and 14: the PC cell past the operand word that names the result, which is the last of the instruction. -/
theorem memoryPast_stepToResult (f : Format) (s t : State) {n : Nat} (h : destination f = .store n)
    (hp : pca t = pca s) (past : MemoryPast s (resultWordAddress f s) t) :
    MemoryPast s (s.y + BitVec.ofNat 16 f.length) (stepToResult t) := by
  have loaded : MemoryPast s (resultWordAddress f s) (loadPc t) := past.of_mem_eq rfl
  have hy : (loadPc t).y = resultWordAddress f s := by
    rw [loadPc_y, hp, past, readPast, if_pos rfl]
  have stepped := loaded.stepPc hp
  rwa [hy, resultWordAddress_succ f s h] at stepped

/-! ### After the whole instruction -/

/-- The result goes to this word of memory: it is the PC cell, in class P, or the RAM word that a store not to the I/O space
computes, in class S (R119, R120, R60). -/
def resultGoesTo (i : Instr) (s : State) (a : Word) : Prop :=
  (destination i.format = .pc ∧ executes i.format.guard s.sr = true ∧ a = pca s) ∨
    (stores i s = true ∧ zioEff i.format = false ∧ isRam (targetOf i s) = true ∧ a = targetOf i s)

theorem resultGoesTo_pca (i : Instr) (s : State) :
    resultGoesTo i s (pca s) ↔
      (destination i.format = .pc ∧ executes i.format.guard s.sr = true) ∨
        (stores i s = true ∧ zioEff i.format = false ∧ targetOf i s = pca s) := by
  have ram : pca s = targetOf i s → isRam (targetOf i s) = true := fun h => h ▸ isRam_pca s
  unfold resultGoesTo
  constructor
  · rintro (⟨hpc, hrun, -⟩ | ⟨hstore, hio, -, ha⟩)
    · exact .inl ⟨hpc, hrun⟩
    · exact .inr ⟨hstore, hio, ha.symm⟩
  · rintro (⟨hpc, hrun⟩ | ⟨hstore, hio, ha⟩)
    · exact .inl ⟨hpc, hrun, rfl⟩
    · exact .inr ⟨hstore, hio, ram ha.symm, ha.symm⟩

/-- Phase 12 is over: the operands have been read, the result is in X. -/
def aluDone (i : Instr) (s : State) : State :=
  aluPhase (aluOf i) (executes i.format.guard s.sr) i.format (operandState i.format s)

theorem execute_mem_aluDone (i : Instr) (s : State) : (execute (aluOf i) i.format s).mem =
    (writeResult (executes i.format.guard s.sr) i.format (aluDone i s)).mem := execute_mem (aluOf i) i.format s

theorem aluDone_x (i : Instr) (s : State) : (aluDone i s).x = (execute (aluOf i) i.format s).x :=
  (execute_x (aluOf i) i.format s).symm

theorem pca_aluDone (i : Instr) (s : State) : pca (aluDone i s) = pca s := by
  rw [aluDone, pca_aluPhase, pca_operandState]

theorem memoryPast_aluDone (i : Instr) (s : State) :
    MemoryPast s (resultWordAddress i.format s) (aluDone i s) :=
  (memoryPast_operandState i.format s).of_mem_eq rfl

theorem storeAddress_aluDone (i : Instr) (s : State) {n : Nat} (h : destination i.format = .store n) :
    storeAddress n (aluDone i s) = targetOf i s := by
  rw [aluDone, storeAddress_aluPhase, targetOf, h]

theorem stores_of_destination (i : Instr) (s : State) {n : Nat} (h : destination i.format = .store n) :
    stores i s = executes i.format.guard s.sr := by
  rw [stores, isStore_of_destination h, Bool.and_true]

/-- The word to which the result goes holds it after the instruction. -/
theorem memRead_execute_of_result {i : Instr} {s : State} {a : Word} (h : resultGoesTo i s a) :
    memRead (execute (aluOf i) i.format s) a = (execute (aluOf i) i.format s).x := by
  rw [memRead, execute_mem_aluDone, writeResult_mem, ← aluDone_x]
  obtain ⟨hpc, hrun, rfl⟩ | ⟨hstore, hio, hram, rfl⟩ := h
  · rw [hpc, hrun, ← pca_aluDone i s]
    exact (memRead_memWrite _ _ _ _).trans (if_pos ⟨rfl, isRam_pca _⟩)
  · cases hd : destination i.format with
    | none | pc => simp [stores, isStore, hd] at hstore
    | store n =>
      rw [stores_of_destination i s hd] at hstore
      simp only [hstore, hio, Bool.not_false, Bool.and_self, if_true, storeAddress_aluDone i s hd]
      exact (memRead_memWrite _ _ _ _).trans (if_pos ⟨rfl, hram⟩)

/-- Every other word is as it was, but for the PC cell, which holds the address of the next instruction. -/
theorem memRead_execute_of_no_result {i : Instr} {s : State} {a : Word} (h : ¬ resultGoesTo i s a) :
    memRead (execute (aluOf i) i.format s) a = readPast s (s.y + BitVec.ofNat 16 i.format.length) a := by
  have past := memoryPast_aluDone i s
  rw [memRead, execute_mem_aluDone, writeResult_mem]
  cases hd : destination i.format with
  | none =>
    rw [← resultWordAddress_of_not_store i.format s (by simp [isStore, hd])]
    exact past a
  | pc =>
    rw [← resultWordAddress_of_not_store i.format s (by simp [isStore, hd])]
    dsimp only
    split <;> rename_i hrun
    · have ha : a ≠ pca s := fun ha => h (.inl ⟨hd, hrun, ha⟩)
      rw [pca_aluDone]
      exact ((memRead_memWrite _ _ _ _).trans (if_neg fun c => ha c.1)).trans (past a)
    · exact past a
  | store n =>
    have stepped := memoryPast_stepToResult i.format s _ hd (pca_aluDone i s) past
    dsimp only
    split <;> rename_i hwrites
    · obtain ⟨hrun, hio⟩ : executes i.format.guard s.sr = true ∧ zioEff i.format = false := by simpa using hwrites
      have ha : ¬ (a = targetOf i s ∧ isRam (targetOf i s) = true) := fun ⟨ha, hram⟩ =>
        h (.inr ⟨(stores_of_destination i s hd).trans hrun, hio, hram, ha⟩)
      rw [storeAddress_aluDone i s hd]
      exact ((memRead_memWrite _ _ _ _).trans (if_neg ha)).trans (stepped a)
    · exact stepped a

/-! ### The statements about memory -/

/-- Settles O27. -/
theorem memoryFrame : Obligations.MemoryFrame := by
  intro i s t a hnext ha hstore
  have no_result : ¬ resultGoesTo i s a := by
    rintro (⟨-, -, hpc⟩ | ⟨hs, hio, -, htarget⟩)
    · exact ha hpc
    · exact hstore hs hio htarget
  rw [exec_next hnext, memRead_execute_of_no_result no_result, readPast, if_neg ha]

/-- Settles O28: memory from the lemmas above, the I/O space from the trace of the instruction, which ends with the store. -/
theorem resultLands : Obligations.ResultLands := by
  intro i s
  refine ⟨_, exec_eq i s, fun hpc hrun => ?pc, fun hstore hio hram => ?ram, fun _ _ hrom => ?rom, fun hstore hio => ?io⟩
  case pc => exact memRead_execute_of_result (.inl ⟨hpc, hrun, rfl⟩)
  case ram => exact memRead_execute_of_result (.inr ⟨hstore, hio, hram, rfl⟩)
  case rom => exact memRead_execute_of_rom _ _ s hrom
  case io =>
    rw [execute_ioTrace_of_operandState, hstore, hio]
    exact List.getLast?_concat

/-- Settles O29. -/
theorem pcCellAfterInstruction : Obligations.PcCellAfterInstruction := by
  intro i s
  refine ⟨_, exec_eq i s, ?_⟩
  split <;> rename_i h
  · exact memRead_execute_of_result ((resultGoesTo_pca i s).mpr h)
  · rw [memRead_execute_of_no_result fun hgoes => h ((resultGoesTo_pca i s).mp hgoes), readPast, if_pos rfl]

end Sys2Proof.Machine
end

section
/-! The status register, the latch, the I/O space and the model's own fields after one instruction (40_execution_sequence.md
R121 to R123; 60_exceptions.md R253 to R256), and the instruction whose condition fails. -/

namespace Sys2Proof.Machine

open Claims

/-! ### The I/O space -/

/-- Phases 2 to 11 use up one of the platform's answers where they read the I/O space. -/
theorem operandState_ioIn (f : Format) (s : State) :
    (operandState f s).ioIn = if readsIo f then s.ioIn.tail else s.ioIn := by
  obtain ⟨-, -, y_uses_none⟩ := readY_io f (readX f (begunState s))
  rw [operandState_eq, y_uses_none]
  unfold readX readsIo readAddressedX
  cases f.x.mode with
  | absent | immediate => simp [begunState]
  | direct | indirect => cases xioEff f <;> rfl

/-- Only an unconditional instruction has modifiers, and it is executed; so one that is not executed does not read the I/O
space. -/
theorem readsIo_of_not_run {f : Format} {sr : Word} (h : executes f.guard sr = false) : readsIo f = false := by
  have conditional : Guard.always f.guard = false := by
    cases hg : f.guard with
    | tr => simp [hg, executes] at h
    | cond c => rfl
  simp [readsIo, xioEff, conditional]

/-! ### The instruction that is not executed -/

section
variable {i : Instr} {s : State} (h : executes i.format.guard s.sr = false)
include h

theorem stores_of_not_run : stores i s = false := by
  rw [stores, h, Bool.false_and]

theorem execute_sr_of_not_run : (execute (aluOf i) i.format s).sr = s.sr := by
  refine BitVec.eq_of_getElem_eq fun k hk => ?_
  by_cases h4 : k < 4
  · exact execute_flags_kept (aluOf i) (.inl h) k h4
  · simp [execute_high (aluOf i) i.format s k (by omega) hk, h]

theorem execute_ioTrace_of_not_run : (execute (aluOf i) i.format s).ioTrace = s.ioTrace := by
  simp [execute_ioTrace_of_operandState, operandState_ioTrace, stores_of_not_run h, readsIo_of_not_run h]

theorem no_result_of_not_run (a : Word) : ¬ resultGoesTo i s a := by
  simp [resultGoesTo, h, stores_of_not_run h]

end

/-- Settles O30. -/
theorem notExecutedOnlyStepsPc : Obligations.NotExecutedOnlyStepsPc := by
  intro i s h
  have memory : ∀ a, memRead (execute (aluOf i) i.format s) a = readPast s (s.y + BitVec.ofNat 16 i.format.length) a :=
    fun a => memRead_execute_of_no_result (no_result_of_not_run h a)
  refine ⟨_, exec_eq i s, execute_sr_of_not_run h, execute_ioTrace_of_not_run h, ?latch, ?cell, fun a ha => ?other⟩
  case latch =>
    rw [execute_latch, h]
    rfl
  case cell => rw [memory, readPast, if_pos rfl]
  case other => rw [memory, readPast, if_neg ha]

/-! ### The upper half of `sr` -/

/-- Bits 13:8 after an instruction: written from the result by an executed store under `&`, then cleared by the recorded
requests, of which none concerns `ie` (R121, R256). -/
theorem execute_upper (i : Instr) (s : State) (k : Nat) (h8 : 8 ≤ k) (h14 : k < 14) :
    (execute (aluOf i) i.format s).sr.getLsbD k =
      ((if stores i s && zsrEff i.format then (execute (aluOf i) i.format s).x.getLsbD k else s.sr.getLsbD k) &&
        !(executes i.format.guard s.sr && (decide (9 ≤ k) && (recorded s).getLsbD (k - 9)))) := by
  have written : (stores i s && zsrEff i.format) = true ↔
      (8 ≤ k ∧ k < 14) ∧ isStore i.format = true ∧ executes i.format.guard s.sr = true ∧ zsrEff i.format = true := by
    rw [stores, Bool.and_eq_true, Bool.and_eq_true]
    tauto
  have h16 : k < 16 := by omega
  simp only [written, BitVec.getLsbD_eq_getElem h16]
  exact execute_high (aluOf i) i.format s k (by omega) h16

/-- Settles O32. -/
theorem upperStatusBitsAfterInstruction : Obligations.UpperStatusBitsAfterInstruction := by
  intro i s
  refine ⟨_, exec_eq i s, ?ie, fun n h1 h5 => ?levels, fun k hk => ?missing⟩
  case ie => simpa [flagIe] using execute_upper i s 8 le_rfl (by omega)
  case levels =>
    have line : 8 + n - 9 = n - 1 := by omega
    have level_bit : 9 ≤ 8 + n := by omega
    simpa [line, level_bit] using execute_upper i s (8 + n) (by omega) (by omega)
  case missing =>
    have place : 4 ≤ k ∧ k < 16 ∧ (k < 8 ∨ 14 ≤ k) := by
      revert k
      decide
    obtain ⟨h4, h16, hm⟩ := place
    rw [BitVec.getLsbD_eq_getElem h16, BitVec.getLsbD_eq_getElem h16]
    exact execute_missing_bits (aluOf i) i.format s k h16 h4 hm

/-! ### The latch and the model's own fields -/

/-- Settles O33. -/
theorem latchAndInternalStateAfterInstruction : Obligations.LatchAndInternalStateAfterInstruction := fun i s =>
  ⟨_, exec_eq i s, execute_latch _ _ s, execute_ir _ _ s, execute_vMode _ _ s, execute_index _ _ s, execute_irqIn _ _ s,
    (execute_ioIn _ _ s).trans (operandState_ioIn i.format s)⟩

end Sys2Proof.Machine
end

section
/-! The loop count in an immediate word: `sub tr sf -,#n,=` (20_memory.md R65; 70_reset_and_hazards.md R288). -/

namespace Sys2Proof.Machine

open Claims

/-! ### The result and flag Z of a subtraction -/

/-- The result of a subtraction is the difference of the words less the borrow in. -/
theorem subOut_z (x y : Word) (c : Bool) : (subOut x y c).z = y - x - BitVec.ofNat 16 c.toNat := by
  simp [subOut, exactDifference, Int.sub_eq_add_neg, BitVec.ofInt_add, BitVec.ofInt_neg, BitVec.sub_eq_add_neg]

theorem aluSub_z (x y : Word) (c : Bool) : (aluSub x y c).z = y - x :=
  (subOut_z x y false).trans (BitVec.sub_zero _)

/-- Flag Z after an executed instruction that sets its flags from the operation: the result is 0 (R118). -/
theorem execute_flagZ (alu : Word → Word → Bool → AluOut) {f : Format} {s : State}
    (hrun : executes f.guard s.sr = true) (hsf : f.setFlags = true) (hz : zsrEff f = false) :
    flagZ (execute alu f s).sr = decide ((execute alu f s).x = 0) := by
  rw [flagZ, execute_flags alu f s 1 (by omega), srAfterAlu, hrun, hsf, hz, execute_x]
  exact getElem_withFlags _ _ _ _ _ 1 (by omega)

/-! ### The instruction -/

/-- `sub tr sf -,#n,=`. -/
def countDown : Instr := .sub (plain true .absent .immediate .same)

theorem yWordAddress_countDown (s : State) : yWordAddress countDown.format s = s.y + 1 := BitVec.add_zero _

/-- It stores to its own immediate word. -/
theorem targetOf_countDown (s : State) : targetOf countDown s = s.y + 1 := by
  rw [targetOf_eq_lastRead countDown s 0 rfl]
  exact (BitVec.add_zero _).trans (yWordAddress_countDown s)

/-- Its result is the immediate word less 1, the value of an absent x operand. -/
theorem execute_x_countDown (s : State) (h : s.y + 1 ≠ pca s) :
    (execute (aluOf countDown) countDown.format s).x = memRead s (s.y + 1) - 1 := by
  have hx : xv countDown.format s = 1 := xv_of_plain _ s rfl
  have hy : yv countDown.format s = memRead s (s.y + 1) := by
    rw [yv_eq, yWordAddress_countDown]
    exact if_neg h
  rw [execute_x]
  exact (aluSub_z _ _ (flagC s.sr)).trans (congrArg₂ (· - ·) hy hx)

theorem resultGoesTo_countDown (s : State) : resultGoesTo countDown s (s.y + 1) ↔ isRam (s.y + 1) = true := by
  rw [resultGoesTo, targetOf_countDown]
  constructor
  · rintro (⟨hpc, -⟩ | ⟨-, -, hram, -⟩)
    · exact absurd hpc (by decide)
    · exact hram
  · exact fun hram => .inr ⟨rfl, rfl, hram, rfl⟩

/-- Settles O40. -/
theorem immediateIsOverwrittenInRam : Obligations.ImmediateIsOverwrittenInRam := by
  intro s h
  have result := execute_x_countDown s h
  refine ⟨_, exec_eq countDown s, ?memory, ?zero⟩
  case memory =>
    split <;> rename_i hram
    · rw [memRead_execute_of_result ((resultGoesTo_countDown s).mpr hram), result]
    · rw [memRead_execute_of_no_result fun hgoes => hram ((resultGoesTo_countDown s).mp hgoes), readPast, if_neg h]
  case zero => rw [execute_flagZ _ rfl rfl rfl, result]

end Sys2Proof.Machine
end

section
/-! The bus accesses of an instruction (40_execution_sequence.md R124; 20_memory.md R67). From phase 3 on the instruction word and
`CC` stay, so that the phases of the instruction are a path in the transition table; each phase of the path makes the
access that its control signals select. -/

namespace Sys2Proof.Machine.Sequencer

open Claims

/-! ### One phase -/

/-- What the table of R124 says of an access. -/
def tableRow (a : Access) : Phase × Bool × Bool := (a.phase, a.io, a.write)

/-- What that table says of the access of a phase: nothing where the phase makes none. -/
def phaseRows (b : Word) (cc : Bool) (p : Phase) : List (Phase × Bool × Bool) :=
  (accessOf (outputs b cc p) p 0).map tableRow

theorem map_tableRow_accessOf (b : Word) (cc : Bool) (p : Phase) (a : Word) :
    (accessOf (outputs b cc p) p a).map tableRow = phaseRows b cc p := by
  unfold phaseRows accessOf
  split <;> rfl

/-- The phase comes after phase 2. -/
def afterPhaseTwo (p : Phase) : Bool := !isIn p [.p0, .p1, .p2]

theorem ga_outputs (b : Word) (cc : Bool) (p : Phase) : (outputs b cc p).ga = !pcPhase p := by
  cases p <;> rfl

theorem afterPhaseTwo_nextPhase {b : Word} {cc : Bool} {p : Phase} (hp : afterPhaseTwo p = true)
    (h : endsInstruction b cc p = false) : afterPhaseTwo (nextPhase b cc p) = true := by
  have one_of : ∀ (c : Bool) (q r : Phase), afterPhaseTwo q = true → afterPhaseTwo r = true →
      afterPhaseTwo (if c then q else r) = true := by
    intro c q r hq hr
    split <;> assumption
  cases p with
  | p0 | p1 | p2 => cases hp
  | p12 =>
    have stored : (c9 b || c8 b) = true := by simpa [endsInstruction, Bool.or_eq_true, or_iff_not_imp_left] using h
    simp [nextPhase, stored, afterPhaseTwo, isIn]
  | p14 =>
    have executed : cc = true := by simpa [endsInstruction] using h
    simpa [nextPhase, executed] using one_of _ _ _ rfl rfl
  | p17 => cases h
  | p4 | p5 | p8 | p10 | p11 | p13 | p16 => rfl
  | p6 | p7 | p15 => exact one_of _ _ _ rfl rfl
  | p3 | p9 => exact one_of _ _ _ rfl (one_of _ _ _ rfl rfl)

theorem ne_p1_of_afterPhaseTwo {p : Phase} (hp : afterPhaseTwo p = true) : p ≠ .p1 := by
  rintro rfl
  cases hp

theorem ne_p2_of_afterPhaseTwo {p : Phase} (hp : afterPhaseTwo p = true) : p ≠ .p2 := by
  rintro rfl
  cases hp

theorem endOfInstruction_ir (cc : Bool) (next : Phase) (s : State) : (endOfInstruction cc next s).ir = s.ir := by
  cases cc <;> rfl

/-- No phase but the last writes a bit of `sr` above the flags. -/
theorem getElem_srAfterPhase {m : Micro} (hp : m.phase ≠ .p17) (sig : Signals) (x y : Word) (k : Nat) (h4 : 4 ≤ k)
    (hk : k < 16) : (srAfterPhase m sig x y)[k] = m.st.sr[k] := by
  unfold srAfterPhase
  split
  · split
    · unfold flagsOut
      split
      · rw [getElem_withFlagsFrom, if_neg (by omega)]
      · rw [getElem_withFlags, if_neg (by omega), if_neg (by omega), if_neg (by omega), if_neg (by omega)]
    · rfl
  · exact absurd ‹_› hp
  · rfl

section
variable {m : Micro} (hp : afterPhaseTwo m.phase = true)
include hp

/-- The instruction register is loaded in phase 1 alone. -/
theorem microStep_ir : (microStep m).st.ir = m.st.ir := by
  have h1 : isIn m.phase [.p1] = false := by simpa [isIn] using ne_p1_of_afterPhaseTwo hp
  have h2 := ne_p2_of_afterPhaseTwo hp
  simp only [microStep, apply_ite State.ir, endOfInstruction_ir, outputs, h1, h2, if_false, ite_self, Bool.false_eq_true]

/-- `CC` is evaluated in phase 2 alone. -/
theorem microStep_cc : (microStep m).cc = m.cc := if_neg (ne_p2_of_afterPhaseTwo hp)

theorem microStep_phase : (microStep m).phase = nextPhase m.st.ir m.cc m.phase := by
  simp only [microStep, ne_p2_of_afterPhaseTwo hp, if_false]

theorem microStep_accesses : (microStep m).accesses = m.accesses ++
    accessOf (outputs m.st.ir m.cc m.phase) m.phase (agate (!pcPhase m.phase) (levelBits m.st.sr) m.st.y) := by
  simp only [microStep, ne_p2_of_afterPhaseTwo hp, if_false, ga_outputs]

/-- Until the instruction ends the level stays, and the PC cell with it. -/
theorem microStep_pca (h : endsInstruction m.st.ir m.cc m.phase = false) : pca (microStep m).st = pca m.st := by
  have not_last : m.phase ≠ .p17 := fun h17 => by simp [endsInstruction, h17] at h
  rw [pca, pca, pcCell, pcCell]
  refine congrArg (BitVec.ofNat 16) (level_congr fun k h9 _ => ?_)
  simp only [microStep, ne_p2_of_afterPhaseTwo hp, if_false, h, Bool.false_eq_true]
  exact getElem_srAfterPhase not_last _ _ _ k (by omega) (by omega)

end

/-! ### Paths -/

/-- The phases of an instruction from a phase on, for instruction word `b` and the signal `CC` (R213). -/
inductive PhasePath (b : Word) (cc : Bool) : Phase → List Phase → Prop
  | last {p : Phase} (h : endsInstruction b cc p = true) : PhasePath b cc p [p]
  | next {p : Phase} {ps : List Phase} (h : endsInstruction b cc p = false) (path : PhasePath b cc (nextPhase b cc p) ps) :
    PhasePath b cc p (p :: ps)

/-- From a state on, these accesses are made: they have the rows given, those of the PC phases are to the current PC cell, and
none is a fetch. -/
structure AccessesFrom (s : State) (rows : List (Phase × Bool × Bool)) (l : List Access) : Prop where
  rows_eq : l.map tableRow = rows
  address : ∀ a ∈ l, a.phase ≠ .p1 ∧ (pcPhase a.phase = true → a.address = pca s)

theorem AccessesFrom.append {s : State} {r r' : List (Phase × Bool × Bool)} {l l' : List Access}
    (h : AccessesFrom s r l) (h' : AccessesFrom s r' l') : AccessesFrom s (r ++ r') (l ++ l') :=
  ⟨by rw [List.map_append, h.rows_eq, h'.rows_eq],
    fun a ha => (List.mem_append.mp ha).elim (h.address a) (h'.address a)⟩

theorem AccessesFrom.of_pca_eq {s t : State} {r : List (Phase × Bool × Bool)} {l : List Access} (hp : pca t = pca s)
    (h : AccessesFrom t r l) : AccessesFrom s r l :=
  ⟨h.rows_eq, fun a ha => hp ▸ h.address a ha⟩

/-- The access of one phase. -/
theorem accessesFrom_microStep {m : Micro} (hp : afterPhaseTwo m.phase = true) :
    ∃ l, (microStep m).accesses = m.accesses ++ l ∧ AccessesFrom m.st (phaseRows m.st.ir m.cc m.phase) l := by
  refine ⟨_, microStep_accesses hp, map_tableRow_accessOf _ _ _ _, fun a ha => ?_⟩
  have made : a.phase = m.phase ∧ a.address = agate (!pcPhase m.phase) (levelBits m.st.sr) m.st.y := by
    unfold accessOf at ha
    split at ha
    · cases ha
    · rw [List.mem_singleton.mp ha]
      exact ⟨rfl, rfl⟩
  obtain ⟨hphase, haddress⟩ := made
  rw [hphase, haddress]
  refine ⟨ne_p1_of_afterPhaseTwo hp, fun hpc => ?_⟩
  rw [hpc]
  exact agate_levelBits m.st

/-- A run along a path makes the accesses of its phases. -/
theorem accessesFrom_runPhases {b : Word} {cc : Bool} {p : Phase} {ps : List Phase} (path : PhasePath b cc p ps)
    (hp : afterPhaseTwo p = true) {k : Nat} (hk : ps.length ≤ k) {m : Micro} (hm : m.phase = p) (hb : m.st.ir = b)
    (hcc : m.cc = cc) :
    ∃ l, (runPhases k m).accesses = m.accesses ++ l ∧ AccessesFrom m.st (ps.flatMap (phaseRows b cc)) l := by
  induction path generalizing k m with
  | last h =>
    subst hm hb hcc
    obtain ⟨k, rfl⟩ : ∃ j, k = j + 1 := ⟨k - 1, by simp at hk; omega⟩
    rw [runPhases_last _ _ (by rwa [microStep_ir hp, microStep_cc hp])]
    simpa using accessesFrom_microStep hp
  | next h path ih =>
    subst hm hb hcc
    obtain ⟨k, rfl⟩ : ∃ j, k = j + 1 := ⟨k - 1, by simp at hk; omega⟩
    rw [runPhases_succ _ _ (by rwa [microStep_ir hp, microStep_cc hp])]
    obtain ⟨l, hl, from_l⟩ := accessesFrom_microStep hp
    obtain ⟨l', hl', from_l'⟩ := ih (afterPhaseTwo_nextPhase hp h) (by simpa using hk) (microStep_phase hp)
      (microStep_ir hp) (microStep_cc hp)
    exact ⟨l ++ l', by rw [hl', hl, List.append_assoc], from_l.append (from_l'.of_pca_eq (microStep_pca hp h))⟩

/-! ### The path of an instruction, by its format -/

/-- Phases that an instruction has under a condition. -/
def phasesIf (c : Bool) (ps : List Phase) : List Phase := if c then ps else []

@[simp] theorem phasesIf_true (ps : List Phase) : phasesIf true ps = ps := rfl

@[simp] theorem phasesIf_false (ps : List Phase) : phasesIf false ps = [] := rfl

theorem flatMap_phasesIf {α : Type} (c : Bool) (ps : List Phase) (g : Phase → List α) :
    (phasesIf c ps).flatMap g = if c then ps.flatMap g else [] := by
  cases c <;> rfl

/-- There is an x operand. -/
def hasX (f : Format) : Bool := decide (f.x.mode ≠ .absent)

/-- The x operand is at an address. -/
def addressedX (f : Format) : Bool := decide (f.x.mode = .direct) || decide (f.x.mode = .indirect)

/-- There is a y operand. -/
def hasY (f : Format) : Bool := decide (f.y ≠ .absent)

/-- The y operand is at an address. -/
def addressedY (f : Format) : Bool := decide (f.y = .direct) || decide (f.y = .indirect)

/-- Phases 3 to 6. -/
def xPath (f : Format) : List Phase :=
  phasesIf (hasX f) [.p3] ++ phasesIf (decide (f.x.mode = .indirect)) [.p4] ++ phasesIf (addressedX f) [.p5] ++
    phasesIf (hasX f) [.p6]

/-- Phase 7. -/
def reloadPath (f : Format) : List Phase := phasesIf (hasX f && hasY f) [.p7]

/-- Phases 8 to 11. -/
def yPath (f : Format) : List Phase :=
  phasesIf (hasY f && decide (f.z.mode ≠ .same)) [.p8] ++ phasesIf (hasY f) [.p9] ++
    phasesIf (decide (f.y = .indirect)) [.p10] ++ phasesIf (addressedY f) [.p11]

/-- `C9` and `C8` of a destination (R214). -/
def destinationBits : Destination → Bool × Bool
  | .none | .pc => (false, false)
  | .store 0 => (false, true)
  | .store 1 => (true, false)
  | .store _ => (true, true)

/-- Phases 15 to 17. -/
def storePath (c9 c8 : Bool) : List Phase := phasesIf c9 [.p15] ++ phasesIf (c9 && c8) [.p16] ++ [.p17]

/-- Phases 13 to 17. -/
def zPath (run : Bool) (f : Format) : List Phase :=
  phasesIf (isStore f)
    ([.p13, .p14] ++ phasesIf run (storePath (destinationBits (destination f)).1 (destinationBits (destination f)).2))

/-- The first phase after the x operand has been read: for the y operand, or phase 12. -/
def yStart (f : Format) : Phase :=
  if f.y = .absent then .p12 else if f.z.mode = .same then .p9 else .p8

/-! The mode fields in the transition table. -/

theorem mode_indirect (h l : Bool) : (l && h) = decide (decodeMode h l = .indirect) := by cases h <;> cases l <;> rfl

theorem mode_direct (h l : Bool) : (!l && h) = decide (decodeMode h l = .direct) := by cases h <;> cases l <;> rfl

theorem mode_addressed (h l : Bool) :
    h = (decide (decodeMode h l = .direct) || decide (decodeMode h l = .indirect)) := by cases h <;> cases l <;> rfl

theorem c9_c8 (b : Word) : (c9 b, c8 b) = destinationBits (destination (decodeFormat b)) := by
  simp only [c9, c8, destination, decodeFormat]
  cases b[9] <;> cases b[8] <;> cases b[7] <;> cases b[6] <;> rfl

section
variable (b : Word) (cc : Bool)

theorem x_present : (b[4] || b[5]) = decide ((decodeFormat b).x.mode ≠ .absent) := f4_eq b
theorem x_indirect : (b[4] && b[5]) = decide ((decodeFormat b).x.mode = .indirect) := mode_indirect b[5] b[4]
theorem x_direct : (!b[4] && b[5]) = decide ((decodeFormat b).x.mode = .direct) := mode_direct b[5] b[4]
theorem x_addressed :
    b[5] = (decide ((decodeFormat b).x.mode = .direct) || decide ((decodeFormat b).x.mode = .indirect)) :=
  mode_addressed b[5] b[4]
theorem y_present : (b[6] || b[7]) = decide ((decodeFormat b).y ≠ .absent) := f2_eq b
theorem y_indirect : (b[6] && b[7]) = decide ((decodeFormat b).y = .indirect) := mode_indirect b[7] b[6]
theorem y_direct : (!b[6] && b[7]) = decide ((decodeFormat b).y = .direct) := mode_direct b[7] b[6]
theorem z_not_same : (!b[8] || b[9]) = decide ((decodeFormat b).z.mode ≠ .same) := result_not_same b[9] b[8]
theorem z_same : (b[8] && !b[9]) = decide ((decodeFormat b).z.mode = .same) := result_same b[9] b[8]

theorem nextPhase_p2 :
    nextPhase b cc .p2 = if (decodeFormat b).x.mode = .absent then yStart (decodeFormat b) else .p3 := by
  simp only [nextPhase, x_present, y_present, z_not_same, Bool.and_assoc, z_same, yStart]
  by_cases hx : (decodeFormat b).x.mode = .absent <;> by_cases hy : (decodeFormat b).y = .absent <;>
    by_cases hz : (decodeFormat b).z.mode = .same <;> simp [hx, hy, hz]

theorem nextPhase_p6 :
    nextPhase b cc .p6 = if (decodeFormat b).y = .absent then .p12 else .p7 := by
  simp [nextPhase, y_present]

theorem nextPhase_p7 :
    nextPhase b cc .p7 = if (decodeFormat b).z.mode = .same then .p9 else .p8 := by
  simp [nextPhase, z_not_same]

theorem isStore_eq : isStore (decodeFormat b) = (c9 b || c8 b) := by
  have bits := c9_c8 b
  rw [Prod.mk.injEq] at bits
  rw [isStore, bits.1, bits.2]
  cases destination (decodeFormat b) with
  | none | pc => rfl
  | store n => match n with | 0 | 1 | _ + 2 => rfl

theorem zPath_eq : zPath cc (decodeFormat b) =
    phasesIf (c9 b || c8 b) ([.p13, .p14] ++ phasesIf cc (storePath (c9 b) (c8 b))) := by
  rw [zPath, isStore_eq, ← c9_c8]

variable {b cc}

/-- Phases 15 to 17, or 17 alone. -/
theorem phasePath_store : PhasePath b cc (if c9 b then .p15 else .p17) (storePath (c9 b) (c8 b)) := by
  have last : PhasePath b cc .p17 [.p17] := .last rfl
  have p16 : PhasePath b cc .p16 [.p16, .p17] := .next rfl last
  unfold storePath
  cases h9 : c9 b with
  | false => exact last
  | true =>
    refine .next rfl ?_
    cases h8 : c8 b <;> simp [nextPhase, h8, last, p16]

/-- Phases 13 to 17, or 13 and 14 where the instruction is not executed. -/
theorem phasePath_p13 : PhasePath b cc .p13 ([.p13, .p14] ++ phasesIf cc (storePath (c9 b) (c8 b))) := by
  refine .next rfl ?_
  cases cc with
  | false => exact .last rfl
  | true => exact .next rfl phasePath_store

/-- Phases 12 to 17. -/
theorem phasePath_p12 : PhasePath b cc .p12 (.p12 :: zPath cc (decodeFormat b)) := by
  have ends : endsInstruction b cc .p12 = !(c9 b || c8 b) := by simp [endsInstruction]
  rw [zPath_eq]
  cases hs : (c9 b || c8 b) with
  | false => exact .last (by rw [ends, hs]; rfl)
  | true =>
    refine .next (by rw [ends, hs]; rfl) ?_
    rw [nextPhase, hs]
    exact phasePath_p13

/-- Phases 9 to 12, for a y operand. -/
theorem phasePath_p9 {ps : List Phase} (hy : (decodeFormat b).y ≠ .absent) (path : PhasePath b cc .p12 ps) :
    PhasePath b cc .p9 (.p9 :: (phasesIf (decide ((decodeFormat b).y = .indirect)) [.p10] ++
      (phasesIf (addressedY (decodeFormat b)) [.p11] ++ ps))) := by
  have p11 : PhasePath b cc .p11 (.p11 :: ps) := .next rfl path
  have p10 : PhasePath b cc .p10 (.p10 :: .p11 :: ps) := .next rfl p11
  refine .next rfl ?_
  rw [nextPhase, y_indirect, y_direct, addressedY]
  cases h : (decodeFormat b).y with
  | absent => exact absurd h hy
  | immediate => exact path
  | direct => exact p11
  | indirect => exact p10

/-- Phases 8 to 12. -/
theorem phasePath_yStart {ps : List Phase} (path : PhasePath b cc .p12 ps) :
    PhasePath b cc (yStart (decodeFormat b)) (yPath (decodeFormat b) ++ ps) := by
  unfold yStart yPath hasY
  by_cases hy : (decodeFormat b).y = .absent
  · simpa [hy, addressedY] using path
  · have p9 := phasePath_p9 hy path
    by_cases hz : (decodeFormat b).z.mode = .same
    · simpa [hy, hz] using p9
    · have p8 : PhasePath b cc .p8 (.p8 :: _) := .next rfl p9
      simpa [hy, hz] using p8

/-- Phases 3 to 12, for an x operand. -/
theorem phasePath_p3 {ps : List Phase} (hx : (decodeFormat b).x.mode ≠ .absent)
    (path : PhasePath b cc (nextPhase b cc .p6) ps) : PhasePath b cc .p3 (xPath (decodeFormat b) ++ ps) := by
  have p6 : PhasePath b cc .p6 (.p6 :: ps) := .next rfl path
  have p5 : PhasePath b cc .p5 (.p5 :: .p6 :: ps) := .next rfl p6
  have p4 : PhasePath b cc .p4 (.p4 :: .p5 :: .p6 :: ps) := .next rfl p5
  have first : xPath (decodeFormat b) ++ ps = .p3 :: ((xPath (decodeFormat b)).tail ++ ps) := by
    simp [xPath, hasX, hx]
  rw [first]
  refine .next rfl ?_
  rw [nextPhase, x_indirect, x_direct, xPath, hasX, addressedX]
  cases h : (decodeFormat b).x.mode with
  | absent => exact absurd h hx
  | immediate => exact p6
  | direct => exact p5
  | indirect => exact p4

/-- Phases 3 to 12: both operands and the ALU. -/
theorem phasePath_operands {ps : List Phase} (path : PhasePath b cc .p12 ps) :
    PhasePath b cc (nextPhase b cc .p2)
      (xPath (decodeFormat b) ++ (reloadPath (decodeFormat b) ++ (yPath (decodeFormat b) ++ ps))) := by
  have y := phasePath_yStart path
  rw [nextPhase_p2]
  by_cases hx : (decodeFormat b).x.mode = .absent
  · simpa [hx, xPath, reloadPath, hasX, addressedX] using y
  · rw [if_neg hx]
    refine phasePath_p3 hx ?_
    rw [nextPhase_p6]
    by_cases hy : (decodeFormat b).y = .absent
    · simpa [hy, reloadPath, hasY, yStart] using y
    · simp only [yStart, hy, if_false] at y
      have p7 : PhasePath b cc .p7 (.p7 :: (yPath (decodeFormat b) ++ ps)) :=
        .next rfl (by rw [nextPhase_p7]; exact y)
      simpa [reloadPath, hasX, hasY, hx, hy] using p7

end

/-! ### The rows of the path -/

section
variable (b : Word) (cc : Bool)

theorem f8_eq : f8 b = (xioEff (decodeFormat b) && addressedX (decodeFormat b)) := by
  have effective : (b[14] && b[11]) = xioEff (decodeFormat b) := by
    simp only [xioEff, decodeFormat]
    cases b[11] <;> cases b[14] <;> rfl
  rw [f8, effective, addressedX, ← x_addressed]

theorem f9_eq : f9 b = zioEff (decodeFormat b) := by
  simp only [f9, zioEff, decodeFormat]
  cases b[11] <;> cases b[12] <;> rfl

theorem destination_eq_pc_iff (f : Format) : destination f = .pc ↔ f.z.mode = .same ∧ f.y = .absent := by
  unfold destination
  cases f.z.mode <;> cases f.y <;> simp

theorem f10_eq : f10 b cc = !(decide (destination (decodeFormat b) = .pc) && cc) := by
  have fields : (b[8] && !b[9] && !(b[6] || b[7])) = decide (destination (decodeFormat b) = .pc) := by
    simp [z_same, y_present, destination_eq_pc_iff]
  rw [← fields, f10]
  cases b[6] <;> cases b[7] <;> cases b[8] <;> cases b[9] <;> rfl

theorem ccSignal_eq (sr : Word) : ccSignal b sr = executes (decodeFormat b).guard sr := by
  simp only [ccSignal, decodeFormat]
  cases b[11] <;> rfl

/-- A phase that reads a word into Y reads memory. -/
theorem phaseRows_of_read {p : Phase} (hp : isIn p [.p4, .p5, .p7, .p9, .p10, .p11, .p13, .p15, .p16] = true) :
    phaseRows b cc p = [(p, false, false)] := by
  cases p with
  | p4 | p5 | p7 | p9 | p10 | p11 | p13 | p15 | p16 => rfl
  | p0 | p1 | p2 | p3 | p6 | p8 | p12 | p14 | p17 => cases hp

/-- A phase that steps the PC writes memory. -/
theorem phaseRows_of_step {p : Phase} (hp : isIn p [.p3, .p8, .p14] = true) :
    phaseRows b cc p = [(p, false, true)] := by
  cases p with
  | p3 | p8 | p14 => rfl
  | p0 | p1 | p2 | p4 | p5 | p6 | p7 | p9 | p10 | p11 | p12 | p13 | p15 | p16 | p17 => cases hp

theorem phaseRows_p6 : phaseRows b cc .p6 = [(.p6, f8 b, false)] := by
  unfold phaseRows accessOf
  cases h : f8 b <;> simp [outputs, isIn, h, tableRow]

theorem phaseRows_p17 : phaseRows b cc .p17 = [(.p17, f9 b, true)] := by
  unfold phaseRows accessOf
  cases h : f9 b <;> simp [outputs, isIn, h, tableRow]

theorem phaseRows_p12 : phaseRows b cc .p12 = if f10 b cc then [] else [(.p12, false, true)] := by
  unfold phaseRows accessOf
  cases h : f10 b cc <;> simp [outputs, isIn, h, tableRow]

/-- The path of an instruction from phase 3 on. -/
def instructionPath (run : Bool) (f : Format) : List Phase :=
  xPath f ++ (reloadPath f ++ (yPath f ++ .p12 :: zPath run f))

theorem phasePath_instructionPath :
    PhasePath b cc (nextPhase b cc .p2) (instructionPath cc (decodeFormat b)) := phasePath_operands phasePath_p12

theorem length_instructionPath (run : Bool) (f : Format) : (instructionPath run f).length ≤ 15 := by
  have short : ∀ (c : Bool) (ps : List Phase), (phasesIf c ps).length ≤ ps.length := by
    intro c ps
    cases c <;> simp
  have hx : (xPath f).length ≤ 4 := by
    simp only [xPath, List.length_append]
    exact add_le_add (add_le_add (add_le_add (short _ _) (short _ _)) (short _ _)) (short _ _)
  have hreload : (reloadPath f).length ≤ 1 := short _ _
  have hy : (yPath f).length ≤ 4 := by
    simp only [yPath, List.length_append]
    exact add_le_add (add_le_add (add_le_add (short _ _) (short _ _)) (short _ _)) (short _ _)
  have hstore : ∀ c9 c8, (storePath c9 c8).length ≤ 3 := by decide
  have hz : (zPath run f).length ≤ 5 :=
    (short _ _).trans (add_le_add_left ((short _ _).trans (hstore _ _)) 2)
  simp only [instructionPath, List.length_append, List.length_cons]
  omega

/-- Phase 12 makes an access in an executed instruction of class P alone. -/
theorem rows_p12 : phaseRows b cc .p12 =
    if decide (destination (decodeFormat b) = .pc) && cc then [(.p12, false, true)] else [] := by
  rw [phaseRows_p12, f10_eq]
  cases decide (destination (decodeFormat b) = .pc) && cc <;> rfl

/-- The table of R124, phase by phase along the path. -/
theorem accessTable_eq (p : StartPhase) : accessTable p cc (decodeFormat b) =
    (if p = .p0 then [(.p0, false, false)] else []) ++ ([(.p1, false, false), (.p2, false, true)] ++
      (instructionPath cc (decodeFormat b)).flatMap (phaseRows b cc)) := by
  simp (disch := decide) only [instructionPath, xPath, reloadPath, yPath, List.flatMap_append, List.flatMap_cons,
    List.flatMap_nil, flatMap_phasesIf, phaseRows_of_read, phaseRows_of_step, phaseRows_p6, rows_p12, f8_eq,
    List.append_nil, zPath, storePath, phaseRows_p17, f9_eq]
  unfold accessTable
  simp only [hasX, hasY, addressedX, addressedY, List.append_assoc, isStore]
  generalize destination (decodeFormat b) = d
  cases d with
  | none | pc => simp
  | store n => match n with | 0 | 1 | _ + 2 => cases cc <;> simp [destinationBits]

end

/-! ### The whole instruction -/

/-- The accesses of phases 0 to 2. -/
def firstAccesses (s : State) : List Access :=
  (if s.phase = .p0 then [⟨.p0, false, false, pca s⟩] else []) ++
    [⟨.p1, false, false, fetchAddress s⟩, ⟨.p2, false, true, pca s⟩]

theorem map_tableRow_firstAccesses (s : State) : (firstAccesses s).map tableRow =
    (if s.phase = .p0 then [(.p0, false, false)] else []) ++ [(.p1, false, false), (.p2, false, true)] := by
  unfold firstAccesses
  split <;> rfl

theorem address_of_mem_firstAccesses {s : State} {a : Access} (ha : a ∈ firstAccesses s) :
    (pcPhase a.phase = true → a.address = pca s) ∧ (a.phase = .p1 → a.address = fetchAddress s) := by
  have one_of : a = ⟨.p0, false, false, pca s⟩ ∨ a = ⟨.p1, false, false, fetchAddress s⟩ ∨
      a = ⟨.p2, false, true, pca s⟩ := by
    unfold firstAccesses at ha
    split at ha <;> simp_all
  rcases one_of with rfl | rfl | rfl
  · exact ⟨fun _ => rfl, by rintro ⟨⟩⟩
  · exact ⟨by rintro ⟨⟩, fun _ => rfl⟩
  · exact ⟨fun _ => rfl, by rintro ⟨⟩⟩

/-- `CC` of the instruction that is fetched. -/
def fetchedCc (s : State) : Bool := executes (decodeFormat (fetch s).ir).guard s.sr

/-- The machine after phases 0 to 2: the instruction fetched, the request lines sampled, the PC stepped. -/
def begunMicro (s : State) : Micro :=
  { st := begunState (fetch s)
    phase := nextPhase (fetch s).ir (fetchedCc s) .p2
    cc := fetchedCc s
    accesses := firstAccesses s
    phases := if s.phase = .p0 then 3 else 2 }

/-- Phases 1 and 2. -/
theorem runPhases_p1 {s t : State} (hload : loadIr t = fetch s) (a : List Access) (n k : Nat) :
    runPhases (k + 2) ⟨t, .p1, false, a, n⟩ =
      runPhases k ⟨begunState (fetch s), nextPhase (fetch s).ir (fetchedCc s) .p2, fetchedCc s,
        a ++ [⟨.p1, false, false, t.y⟩, ⟨.p2, false, true, pca s⟩], n + 2⟩ := by
  have hcc : ccSignal (fetch s).ir (fetch s).sr = fetchedCc s := by rw [ccSignal_eq, fetch_sr, fetchedCc]
  have hp : pca (fetch s) = pca s := pca_of_sr_eq s _ (fetch_sr s)
  rw [runPhases_succ _ _ rfl, microStep_p1, runPhases_succ _ _ rfl, nextPhase, microStep_p2, hload, hcc, hp,
    List.append_assoc]
  rfl

theorem runInstruction_eq (s : State) :
    runInstruction s = runPhases (18 - (begunMicro s).phases) (begunMicro s) := by
  unfold runInstruction start begunMicro firstAccesses
  obtain hphase | hphase := phase_eq_p0_or_p1 s
  · have hload : loadIr (loadPc s) = fetch s := by rw [fetch, hphase]
    rw [hphase, fetchAddress_of_p0 hphase]
    exact (runPhases_succ 17 _ rfl).trans ((congrArg (runPhases 17) (microStep_p0 s false [] 0)).trans
      (runPhases_p1 hload _ 1 15))
  · have hload : loadIr s = fetch s := by rw [fetch, hphase]
    rw [hphase, fetchAddress_of_p1 hphase]
    exact runPhases_p1 hload [] 0 16

theorem afterPhaseTwo_begunMicro (s : State) : afterPhaseTwo (begunMicro s).phase = true := by
  rw [begunMicro, nextPhase_p2, yStart]
  split
  · split
    · rfl
    · split <;> rfl
  · rfl

theorem nextInstr_format (s : State) : (nextInstr s).format = decodeFormat (fetch s).ir := by
  rw [nextInstr, decodeWord_format, fetch_eq]

/-- Settles O49: phases 0 to 2 make the first accesses of the table, the path from phase 3 on the others. -/
theorem busAccessesFollowTable : Obligations.BusAccessesFollowTable := by
  intro s
  have enough : (instructionPath (fetchedCc s) (decodeFormat (fetch s).ir)).length ≤ 18 - (begunMicro s).phases := by
    have path := length_instructionPath (fetchedCc s) (decodeFormat (fetch s).ir)
    have begun : (begunMicro s).phases ≤ 3 := by
      unfold begunMicro
      dsimp only
      split <;> omega
    omega
  obtain ⟨l, hl, from_l⟩ := accessesFrom_runPhases (phasePath_instructionPath (fetch s).ir (fetchedCc s))
    (afterPhaseTwo_begunMicro s) enough (m := begunMicro s) rfl rfl rfl
  have accesses : (runInstruction s).accesses = firstAccesses s ++ l := by
    rw [runInstruction_eq, hl, begunMicro]
  have hp : pca (begunMicro s).st = pca s := pca_of_sr_eq s _ (fetch_sr s)
  rw [accesses, nextInstr_format]
  refine ⟨?rows, fun a ha => ?address⟩
  case rows =>
    have rows : (firstAccesses s ++ l).map tableRow =
        accessTable s.phase (fetchedCc s) (decodeFormat (fetch s).ir) := by
      rw [List.map_append, map_tableRow_firstAccesses, from_l.rows_eq, accessTable_eq, List.append_assoc]
    exact rows
  case address =>
    rcases List.mem_append.mp ha with first | later
    · exact address_of_mem_firstAccesses first
    · obtain ⟨not_fetch, to_cell⟩ := from_l.address a later
      exact ⟨fun hpc => (to_cell hpc).trans hp, fun h1 => absurd h1 not_fetch⟩

end Sys2Proof.Machine.Sequencer
end

section
/-! The arithmetic group (41_arithmetic.md R150 to R154). The model computes result, carry and overflow from the exact sum or
difference of R150; here that is brought to words and their sign bits. -/

namespace Sys2Proof.Machine

open Claims

/-! ### What an instruction computes, from what its ALU function puts out -/

/-- The flags after an executed instruction that sets them from the operation (R118). -/
theorem execute_flags_of_alu (alu : Word → Word → Bool → AluOut) {f : Format} {s : State}
    (hrun : executes f.guard s.sr = true) (hsf : f.setFlags = true) (hz : zsrEff f = false) (k : Nat) (hk : k < 4) :
    (execute alu f s).sr[k] =
      (withAluFlags (operandState f s) (aluResult alu f (operandState f s)))[k] := by
  simp [execute_flags alu f s k hk, srAfterAlu, hrun, hsf, hz]

/-- V is resolved by the state in which the instruction begins: reading the operands changes neither its number nor
`V_LOGIC_MODE`. -/
theorem resolveV_operandState (f : Format) (s : State) (o : Overflow) :
    resolveV (operandState f s) o = resolveV s o := by
  simp [resolveV]

theorem aluResult_operandState (alu : Word → Word → Bool → AluOut) (f : Format) (s : State) :
    aluResult alu f (operandState f s) = alu (xv f s) (yv f s) (flagC s.sr) := by
  rw [aluResult, operandState_sr]
  rfl

/-- An instruction computes what its ALU function puts out for the operands and the old carry. -/
theorem computes_of_aluOf {i : Instr} {s : State} {o : AluOut} {isResult : Word → Prop} {c v : Bool}
    (ho : aluOf i (xv i.format s) (yv i.format s) (flagC s.sr) = o)
    (hresult : isResult o.z) (hc : o.c = c) (hv : resolveV s o.v = v) : Computes i s isResult c v := by
  have out : aluResult (aluOf i) i.format (operandState i.format s) = o :=
    (aluResult_operandState _ _ _).trans ho
  have hx : (execute (aluOf i) i.format s).x = o.z := by rw [execute_x, out]
  refine ⟨_, exec_eq i s, hx ▸ hresult, fun hrun hsf hz => ?_⟩
  have flags := execute_flags_of_alu (aluOf i) hrun hsf hz
  simp only [out, withAluFlags, getElem_withFlags, resolveV_operandState] at flags
  rw [hx]
  exact ⟨(flags 0 (by omega)).trans hc, flags 1 (by omega), flags 2 (by omega), (flags 3 (by omega)).trans hv⟩

/-! ### The result -/

theorem ofNat_toNat_eq_bit (c : Bool) : BitVec.ofNat 16 c.toNat = bit c := by
  cases c <;> rfl

theorem addOut_z (x y : Word) (c : Bool) : (addOut x y c).z = x + y + bit c := by
  simp [addOut, exactSum, BitVec.ofNat_add, ofNat_toNat_eq_bit]

theorem subOut_z_eq_bit (x y : Word) (c : Bool) : (subOut x y c).z = y - x - bit c := by
  rw [subOut_z, ofNat_toNat_eq_bit]

/-- The exact difference is negative exactly where the subtrahend and the borrow in exceed the minuend (R150, D2). -/
theorem subOut_c (x y : Word) (c : Bool) : (subOut x y c).c = decide (y.toNat < x.toNat + c.toNat) := by
  refine decide_eq_decide.mpr ?_
  unfold exactDifference
  omega

/-! ### Signed overflow -/

/-- Bit 15 is the sign. -/
theorem getElem_fifteen (w : Word) : w[15] = decide (w.toInt < 0) :=
  (BitVec.msb_eq_getLsbD_last w).symm.trans BitVec.msb_eq_toInt

/-- The sum of two 16-bit signed values and a carry is out of range exactly where the two have one sign and the 16-bit
value of the sum has the other. -/
theorem outsideSigned_add {a b : Int} (ha : -2 ^ 15 ≤ a ∧ a < 2 ^ 15) (hb : -2 ^ 15 ≤ b ∧ b < 2 ^ 15) (c : Bool) :
    outsideSigned (a + b + c.toNat) =
      (decide (a < 0) == decide (b < 0) && decide ((a + b + c.toNat).bmod (2 ^ 16) < 0) != decide (a < 0)) := by
  have hc := c.toNat_le
  rw [Bool.eq_iff_iff, outsideSigned, Int.bmod]
  simp only [Bool.or_eq_true, Bool.and_eq_true, beq_iff_eq, bne_iff_ne, ne_eq, decide_eq_true_eq, decide_eq_decide]
  omega

/-- The model's overflow of an addition is the one by the sign bits (R150, D3). -/
theorem overflowAdd_eq_addOverflow (x y : Word) (c : Bool) : overflowAdd x y c = addOverflow x y c := by
  have hz : (x + y + bit c).toInt = (x.toInt + y.toInt + c.toNat).bmod (2 ^ 16) := by
    cases c <;> simp [bit, BitVec.toInt_add]
  rw [addOverflow, getElem_fifteen x, getElem_fifteen y, getElem_fifteen (x + y + bit c), hz]
  exact outsideSigned_add ⟨x.le_toInt, x.toInt_lt⟩ ⟨y.le_toInt, y.toInt_lt⟩ c

/-- The model's overflow of a subtraction is the one by the sign bits: `y - x - c` is the sum of `y`, the complement of `x`
and the complement of the borrow (R150, D3). -/
theorem overflowSub_eq_subOverflow (x y : Word) (c : Bool) : overflowSub x y c = subOverflow x y c := by
  have hz : (y - x - bit c).toInt = (y.toInt - x.toInt - c.toNat).bmod (2 ^ 16) := by
    cases c <;> simp [bit, BitVec.toInt_sub]
  have carry : ((!c).toNat : Int) = 1 - c.toNat := by cases c <;> rfl
  have complement : y.toInt - x.toInt - c.toNat = y.toInt + (-x.toInt - 1) + (!c).toNat := by omega
  have signs : (decide (y.toInt < 0) == decide (-x.toInt - 1 < 0)) = (decide (y.toInt < 0) != decide (x.toInt < 0)) := by
    rw [Bool.eq_iff_iff, beq_iff_eq, bne_iff_ne, ne_eq, decide_eq_decide, decide_eq_decide]
    omega
  have hx := x.le_toInt
  have hx' := x.toInt_lt
  rw [subOverflow, getElem_fifteen y, getElem_fifteen x, getElem_fifteen (y - x - bit c), hz, overflowSub, complement,
    outsideSigned_add ⟨y.le_toInt, y.toInt_lt⟩ ⟨by omega, by omega⟩, signs]

/-! ### The four instructions -/

/-- An instruction that puts out the addition of its operands and a carry in. -/
theorem computes_of_addOut {i : Instr} {s : State} {c : Bool}
    (h : aluOf i (xv i.format s) (yv i.format s) (flagC s.sr) = addOut (xv i.format s) (yv i.format s) c) :
    Computes i s (· = xv i.format s + yv i.format s + bit c)
      (decide (2 ^ 16 ≤ (xv i.format s).toNat + (yv i.format s).toNat + c.toNat))
      (addOverflow (xv i.format s) (yv i.format s) c) :=
  computes_of_aluOf h (addOut_z _ _ c) rfl (overflowAdd_eq_addOverflow _ _ c)

/-- An instruction that puts out the difference of its operands less a borrow in. -/
theorem computes_of_subOut {i : Instr} {s : State} {c : Bool}
    (h : aluOf i (xv i.format s) (yv i.format s) (flagC s.sr) = subOut (xv i.format s) (yv i.format s) c) :
    Computes i s (· = yv i.format s - xv i.format s - bit c)
      (decide ((yv i.format s).toNat < (xv i.format s).toNat + c.toNat))
      (subOverflow (xv i.format s) (yv i.format s) c) :=
  computes_of_aluOf h (subOut_z_eq_bit _ _ c) (subOut_c _ _ c) (overflowSub_eq_subOverflow _ _ c)

/-- Settles O22: `add` and `sub` are the common forms with carry or borrow in 0, `addc` and `subc` with the old flag C. -/
theorem arithmeticResults : Obligations.ArithmeticResults := by
  intro f s x y c
  refine ⟨?add, ?sub, ?addc, ?subc⟩
  case add => simpa [bit, Instr.format, x, y] using computes_of_addOut (i := .add f) (s := s) (c := false) rfl
  case sub => simpa [bit, Instr.format, x, y] using computes_of_subOut (i := .sub f) (s := s) (c := false) rfl
  case addc => exact computes_of_addOut (i := .addc f) rfl
  case subc => exact computes_of_subOut (i := .subc f) rfl

end Sys2Proof.Machine
end

section
/-! The logic group (42_logic.md R160 to R164): each instruction clears C and puts out one bitwise function of its operands,
with V "undefiniert" and `ALU3 ALU2` choosing what the ALU block has in its place. -/

namespace Sys2Proof.Machine

open Claims

/-! ### V where the description leaves it open -/

theorem resolveV_undefined (s : State) (table : Bool) : resolveV s (.undefined table) = undefinedV s table := by
  unfold resolveV undefinedV
  cases s.vMode <;> rfl

/-- The `VF` column by the sign bits: `ALU2` chooses the subtraction, `ALU3` lets the old carry in (R160, R225). -/
theorem tableV_eq_overflow (alu3 alu2 : Bool) (x y : Word) (cin : Bool) :
    tableV alu3 alu2 x y cin =
      if alu2 then subOverflow x y (alu3 && cin) else addOverflow x y (alu3 && cin) := by
  cases alu2 with
  | false => cases alu3 <;> exact overflowAdd_eq_addOverflow x y _
  | true => cases alu3 <;> exact overflowSub_eq_subOverflow x y _

/-- An instruction whose description leaves V open (R160, R170) computes the result and carry that it puts out; V is what
`V_LOGIC_MODE` makes of the overflow that `ALU3 ALU2` select. -/
theorem computes_of_undefinedVOut {i : Instr} {s : State} {isResult : Word → Prop} {z : Word} {c alu3 alu2 : Bool}
    (hout : aluOf i (xv i.format s) (yv i.format s) (flagC s.sr) =
      undefinedVOut z c alu3 alu2 (xv i.format s) (yv i.format s) (flagC s.sr))
    (hresult : isResult z) :
    Computes i s isResult c (undefinedV s
      (if alu2 then subOverflow (xv i.format s) (yv i.format s) (alu3 && flagC s.sr)
        else addOverflow (xv i.format s) (yv i.format s) (alu3 && flagC s.sr))) :=
  computes_of_aluOf hout hresult rfl
    ((resolveV_undefined s _).trans (congrArg (undefinedV s) (tableV_eq_overflow alu3 alu2 _ _ _)))

/-! ### The four instructions -/

theorem getElem_bitwiseNor (x y : Word) (k : Nat) (h : k < 16) : (~~~(x ||| y))[k] = !(x[k] || y[k]) := by
  rw [BitVec.getElem_not, BitVec.getElem_or]

/-- Settles O23: each instruction is one bitwise operation, whose bits the `BitVec` lemmas give; its row of the ALU block's
table (`ALU3 ALU2` = 00, 01, 10, 11) chooses the overflow that V may show. -/
theorem logicResults : Obligations.LogicResults := by
  intro f s x y c
  refine ⟨?nor, ?and, ?eor, ?or⟩
  case nor => exact computes_of_undefinedVOut (i := .nor f) rfl (getElem_bitwiseNor x y)
  case and => exact computes_of_undefinedVOut (i := .and f) rfl fun _ => BitVec.getElem_and
  case eor => exact computes_of_undefinedVOut (i := .eor f) rfl fun _ => BitVec.getElem_xor
  case or => exact computes_of_undefinedVOut (i := .or f) rfl fun _ => BitVec.getElem_or

end Sys2Proof.Machine
end

section
/-! The shift, rotate and swap group (43_shift_rotate_swap.md R170 to R178): each instruction moves the bits of x by one place, or
takes a byte of each operand, and C is the bit of x that leaves at that end; V is open as in the logic group. -/

namespace Sys2Proof.Machine

open Claims

/-! ### The moved words, bit by bit -/

/-- One bit placed in an otherwise zero word. -/
theorem getElem_placeField_ofBool (b : Bool) (low k : Nat) (h : k < 16) :
    (placeField (BitVec.ofBool b) low)[k] = (decide (k = low) && b) := by
  rw [placeField, BitVec.getElem_shiftLeft, BitVec.getElem_setWidth, BitVec.getLsbD_ofBool, ← Bool.and_assoc]
  congr 1
  rw [Bool.eq_iff_iff]
  simp only [Bool.and_eq_true, Bool.not_eq_true', decide_eq_false_iff_not, decide_eq_true_eq]
  omega

/-- Below bit 15 the bit placed at the top plays no part; at bit 15 the moved word has nothing. -/
theorem isRightShift_rightOne (x : Word) (top : Bool) : IsRightShift x top (rightOne top x) := by
  unfold IsRightShift rightOne
  refine ⟨?top, fun k h => ?moved⟩
  case top => simp [getElem_placeField_ofBool]
  case moved =>
    have below : k ≠ 15 := by omega
    have place : 1 + k = k + 1 := by omega
    simp [getElem_placeField_ofBool, below, place, BitVec.getLsbD_eq_getElem (show k + 1 < 16 by omega)]

/-- Above bit 0 the bit placed at the bottom plays no part; at bit 0 the moved word has nothing. -/
theorem isLeftShift_leftOne (x : Word) (low : Bool) : IsLeftShift x low (leftOne x low) := by
  unfold IsLeftShift leftOne
  refine ⟨?low, fun k h => ?moved⟩
  case low => simp [getElem_placeField_ofBool]
  case moved => simp [getElem_placeField_ofBool]

/-- In each byte of the swapped word one of the two moved words has nothing. -/
theorem getElem_swappedBytes (x y : Word) (k : Nat) (h : k < 8) :
    ((y <<< 8) ||| (x >>> 8))[k] = x[k + 8] ∧ ((y <<< 8) ||| (x >>> 8))[k + 8] = y[k] := by
  refine ⟨?lowByte, ?highByte⟩
  case lowByte =>
    have place : 8 + k = k + 8 := by omega
    simp [h, place, BitVec.getLsbD_eq_getElem (show k + 8 < 16 by omega)]
  case highByte =>
    have beyond : x.getLsbD (8 + (k + 8)) = false := BitVec.getLsbD_of_ge x _ (by omega)
    simp [beyond]

/-! ### The instructions -/

/-- Settles O24: the four differ in the bit that enters at the top, which is bit 0, the old C, the sign, or 0. -/
theorem rightShiftResults : Obligations.RightShiftResults := by
  intro f s x y c
  refine ⟨?ror, ?rorc, ?asr, ?lsr⟩
  case ror => exact computes_of_undefinedVOut (i := .ror f) rfl (isRightShift_rightOne x x[0])
  case rorc => exact computes_of_undefinedVOut (i := .rorc f) rfl (isRightShift_rightOne x c)
  case asr => exact computes_of_undefinedVOut (i := .asr f) rfl (isRightShift_rightOne x x[15])
  case lsr => exact computes_of_undefinedVOut (i := .lsr f) rfl (isRightShift_rightOne x false)

/-- Settles O25: the left moves differ in the bit that enters at the bottom, which is bit 15, the old C, or 0; `bswp` takes
a byte of each operand. -/
theorem leftShiftAndSwapResults : Obligations.LeftShiftAndSwapResults := by
  intro f s x y c
  refine ⟨?rol, ?rolc, ?asl, ?lsl, ?bswp⟩
  case rol => exact computes_of_undefinedVOut (i := .rol f) rfl (isLeftShift_leftOne x x[15])
  case rolc => exact computes_of_undefinedVOut (i := .rolc f) rfl (isLeftShift_leftOne x c)
  case asl => exact computes_of_undefinedVOut (i := .asl f) rfl (isLeftShift_leftOne x false)
  case lsl => exact computes_of_undefinedVOut (i := .lsl f) rfl (isLeftShift_leftOne x false)
  case bswp => exact computes_of_undefinedVOut (i := .bswp f) rfl (getElem_swappedBytes x y)

end Sys2Proof.Machine
end

section
/-! The level in terms of request lines (10_state.md R25; 60_exceptions.md R256 to R258): a line is at work where its level bit
is clear, the level is the highest of those, and clearing level bits puts lines to work. -/

namespace Sys2Proof.Machine

open Claims

/-- The lines at work in a status word: bit `n - 1` is the complement of `i_n` (R25). -/
def activeLines (sr : Word) : Lines := ~~~(sr.extractLsb' 9 5)

theorem level_eq_highest (sr : Word) : level sr = highest (activeLines sr) := by
  simp [level, highest, activeLines]

theorem activeLines_clearLevels (l : Lines) (sr : Word) : activeLines (clearLevels l sr) = activeLines sr ||| l := by
  refine BitVec.eq_of_getElem_eq fun k hk => ?_
  have place : 9 + k - 9 = k := by omega
  have upper : 9 ≤ 9 + k ∧ 9 + k < 14 := by omega
  simp [activeLines, BitVec.getLsbD_eq_getElem (show 9 + k < 16 by omega), getElem_clearLevels, upper, place]

theorem highest_or : ∀ a b : Lines, highest (a ||| b) = max (highest a) (highest b) := by decide

/-- Where level bits are cleared, the highest of the old level and the lines concerned becomes the level. -/
theorem level_clearLevels (l : Lines) (sr : Word) : level (clearLevels l sr) = max (level sr) (highest l) := by
  rw [level_eq_highest, level_eq_highest, activeLines_clearLevels, highest_or]

theorem level_clearLevels_of_lt {l : Lines} {sr : Word} (h : level sr < highest l) :
    level (clearLevels l sr) = highest l := by
  rw [level_clearLevels, max_eq_right h.le]

/-- The next instruction of a state that begins in P0 comes from the PC cell of its level. -/
theorem fetchAddress_of_level {s : State} (hp : s.phase = .p0) {n : Nat} (h : level s.sr = n) :
    fetchAddress s = memRead s (BitVec.ofNat 16 n) := by
  rw [fetchAddress_of_p0 hp, pca, pcCell, h]

theorem phaseAfter_of_run (f : Format) : phaseAfter true f = .p0 := by
  simp [phaseAfter]

/-- An executed instruction leaves the sequencer at P0. -/
theorem execute_phase_of_run (alu : Word → Word → Bool → AluOut) {f : Format} {s : State}
    (h : executes f.guard s.sr = true) : (execute alu f s).phase = .p0 := by
  rw [execute_phase, h, phaseAfter_of_run]

end Sys2Proof.Machine
end

section
/-! The forms that handle the status register and the PC cell (44_control_sr_io_forms.md R190 to R199). -/

namespace Sys2Proof.Machine

open Claims

/-! ### Operands -/

/-- The PC cell named by an operand word that is not the cell itself: what it has been stepped to (R193). -/
theorem lastRead_two_of_pca {s : State} {cell a : Word} (ha : a ≠ pca s) (hcell : memRead s a = pca s) :
    lastRead s cell 2 a = cell := by
  simp [lastRead, readPast, ha, hcell]

/-- Settles O21: both operands are the second read of a chain whose first read gives the address of the cell. -/
theorem ownPcCellAsOperand : Obligations.OwnPcCellAsOperand := by
  intro f s
  refine ⟨fun hx hio ha hcell => ?x, fun hy ha hcell => ?y⟩
  case x =>
    have operand : xOperand f s = s.y + 2 := by
      simp only [xOperand, hx, hio, Bool.false_eq_true, if_false]
      exact lastRead_two_of_pca ha hcell
    split <;> rename_i hsr
    · rw [xv_of_sr f s hsr (by simp [hx]), operand]
    · rw [xv_of_plain f s (by simpa using hsr), operand]
  case y =>
    rw [yv_eq, hy]
    exact lastRead_two_of_pca ha hcell

/-- The result of an instruction is what its ALU function makes of the operands and the old carry. -/
theorem execute_x_eq (i : Instr) (s : State) :
    (execute (aluOf i) i.format s).x = (aluOf i (xv i.format s) (yv i.format s) (flagC s.sr)).z := by
  rw [execute_x, aluResult_operandState]

theorem xOperand_of_immediate {f : Format} {s : State} (hm : f.x.mode = .immediate) (h : s.y + 1 ≠ pca s) :
    xOperand f s = memRead s (s.y + 1) := by
  simp only [xOperand, hm, lastRead, readPast, h, if_false]

theorem yv_of_absent {f : Format} (s : State) (hm : f.y = .absent) : yv f s = 0 := by
  rw [yv_eq, if_pos hm]

/-- An immediate y operand that follows the instruction word. -/
theorem yv_of_immediate {f : Format} {s : State} (hx : f.x.mode = .absent) (hm : f.y = .immediate)
    (h : s.y + 1 ≠ pca s) : yv f s = memRead s (s.y + 1) := by
  have address : yWordAddress f s = s.y + 1 := by simp [yWordAddress, hx, Mode.words]
  simp only [yv_eq, hm, address, wordsRead, lastRead, readPast, h, if_false, reduceCtorEq]

/-! ### The status register after an instruction with `hf` -/

/-- With `hf` and no request recorded an instruction changes nothing of `sr` but the upper half that it stores (R118,
R121). -/
theorem execute_sr_of_hf {i : Instr} {s : State} (hf : i.format.setFlags = false) (hrec : recorded s = 0) :
    (execute (aluOf i) i.format s).sr =
      if stores i s && zsrEff i.format then withHighFrom s.sr (execute (aluOf i) i.format s).x else s.sr := by
  refine BitVec.eq_of_getElem_eq fun k hk => ?_
  have outside : ¬ (8 ≤ k ∧ k < 14) → (execute (aluOf i) i.format s).sr[k] = s.sr[k] := by
    intro h
    by_cases h4 : k < 4
    · exact execute_flags_kept (aluOf i) (.inr hf) k h4
    · exact execute_missing_bits (aluOf i) i.format s k hk (by omega) (by omega)
  have upper : 8 ≤ k ∧ k < 14 → (execute (aluOf i) i.format s).sr[k] =
      if stores i s && zsrEff i.format then (execute (aluOf i) i.format s).x[k] else s.sr[k] := by
    intro ⟨h8, h14⟩
    simpa [hrec, BitVec.getLsbD_eq_getElem hk] using execute_upper i s k h8 h14
  by_cases h : 8 ≤ k ∧ k < 14
  · rw [upper h]
    split
    · rw [getElem_withHighFrom, if_pos h]
    · rfl
  · rw [outside h]
    split
    · rw [getElem_withHighFrom, if_neg h]
    · rfl

/-! ### Level bits set and cleared by software -/

/-- `tr hf &-,#m,&dst`. -/
def maskStatus : Format :=
  { plain false .absent .immediate .direct with
    x := { sr := true, io := false, mode := .absent }, z := { sr := true, io := false, mode := .direct } }

/-- The result is the operation on `sr` as it reads and on the mask. -/
theorem execute_x_maskStatus {i : Instr} {s : State} (hi : i.format = maskStatus) (h : s.y + 1 ≠ pca s) :
    (execute (aluOf i) i.format s).x = (aluOf i (s.sr &&& 0x3F0F) (memRead s (s.y + 1)) (flagC s.sr)).z := by
  have hx : xv maskStatus s = s.sr &&& 0x3F0F := xv_of_sr_absent _ s rfl rfl
  have hy : yv maskStatus s = memRead s (s.y + 1) := yv_of_immediate rfl rfl h
  rw [execute_x_eq, hi, hx, hy]

theorem getLsbD_withHighFrom (sr z : Word) (k : Nat) :
    (withHighFrom sr z).getLsbD k = if 8 ≤ k ∧ k < 14 then z.getLsbD k else sr.getLsbD k := by
  by_cases hk : k < 16
  · simp only [BitVec.getLsbD_eq_getElem hk]
    exact getElem_withHighFrom sr z k hk
  · have beyond : ∀ w : Word, w.getLsbD k = false := fun w => BitVec.getLsbD_of_ge w k (by omega)
    simp only [beyond, ite_self]

/-- `sr` as it reads has `ie` and the level bits (R21, R117). -/
theorem getLsbD_srRead_upper (sr : Word) {k : Nat} (h : 8 ≤ k ∧ k < 14) :
    (sr &&& 0x3F0F).getLsbD k = sr.getLsbD k := by
  obtain ⟨h8, h14⟩ := h
  interval_cases k <;> simp

theorem getLsbD_one_shiftLeft {w k : Nat} (j : Nat) (hk : k < w) :
    ((1 : BitVec w) <<< j).getLsbD k = decide (k = j) := by
  have bit := BitVec.getLsbD_twoPow (w := w) j k
  rw [BitVec.twoPow_eq] at bit
  refine bit.trans ?_
  rw [Bool.eq_iff_iff, Bool.and_eq_true, decide_eq_true_eq, decide_eq_true_eq, decide_eq_true_eq]
  omega

/-- `ie` and the level bits become those of the result, with no request recorded; every other bit of `sr` stays. -/
theorem getLsbD_sr_maskStatus {i : Instr} {s : State} {m : Word} (hi : i.format = maskStatus) (hrec : recorded s = 0)
    (h : s.y + 1 ≠ pca s) (hm : memRead s (s.y + 1) = m) (k : Nat) :
    (execute (aluOf i) i.format s).sr.getLsbD k =
      if 8 ≤ k ∧ k < 14 then (aluOf i (s.sr &&& 0x3F0F) m (flagC s.sr)).z.getLsbD k else s.sr.getLsbD k := by
  have written : (stores i s && zsrEff i.format) = true := by
    rw [stores, hi]
    rfl
  rw [execute_sr_of_hf (by rw [hi]; rfl) hrec, if_pos written, execute_x_maskStatus hi h, hm, getLsbD_withHighFrom]

theorem aluOf_or_z (f : Format) (x y : Word) (c : Bool) : (aluOf (.or f) x y c).z = x ||| y := rfl

theorem aluOf_and_z (f : Format) (x y : Word) (c : Bool) : (aluOf (.and f) x y c).z = x &&& y := rfl

/-- Settles O37: the mask adds its one bit to the upper half, and the bit lies there. -/
theorem returnSetsLevelBit : Obligations.ReturnSetsLevelBit := by
  intro s n h1 h5 hrec hcell hmask
  refine ⟨_, exec_eq (.or maskStatus) s, fun k => (getLsbD_sr_maskStatus rfl hrec hcell hmask k).trans ?_⟩
  split <;> rename_i hk
  · have h16 : k < 16 := by omega
    rw [aluOf_or_z, BitVec.getLsbD_or, getLsbD_srRead_upper s.sr hk, getLsbD_one_shiftLeft _ h16]
  · have not_level : k ≠ 8 + n := by omega
    simp [not_level]

/-- Clearing one level bit makes its level the current one if that is above the old level, as a request of that line does. -/
theorem level_of_bit_cleared {sr sr' : Word} {n : Nat} (h1 : 1 ≤ n) (h5 : n ≤ 5)
    (h : ∀ k, sr'.getLsbD k = (sr.getLsbD k && !decide (k = 8 + n))) (hlevel : level sr < n) : level sr' = n := by
  have line : highest ((1 : Lines) <<< (n - 1)) = n := by interval_cases n <;> rfl
  have cleared : level sr' = level (clearLevels ((1 : Lines) <<< (n - 1)) sr) := by
    refine level_congr fun k h9 h14 => ?_
    have place : k - 9 = n - 1 ↔ k = 8 + n := by omega
    have line_bit : ((1 : Lines) <<< (n - 1))[k - 9] = decide (k = 8 + n) := by
      rw [← BitVec.getLsbD_eq_getElem, getLsbD_one_shiftLeft _ (by omega), decide_eq_decide.mpr place]
    rw [getElem_clearLevels, dif_pos ⟨h9, h14⟩, line_bit, ← BitVec.getLsbD_eq_getElem, ← BitVec.getLsbD_eq_getElem, h]
  rw [cleared, level_clearLevels_of_lt (by rwa [line]), line]

/-- Settles O38: bit by bit as for the return; the level is then as if line `n` had made a request. -/
theorem softwareEntersLevel : Obligations.SoftwareEntersLevel := by
  intro s n h1 h5 hrec hcell hmask
  have bits : ∀ k, (execute aluAnd maskStatus s).sr.getLsbD k = (s.sr.getLsbD k && !decide (k = 8 + n)) := by
    refine fun k => (getLsbD_sr_maskStatus (i := .and maskStatus) rfl hrec hcell hmask k).trans ?_
    split <;> rename_i hk
    · have h16 : k < 16 := by omega
      rw [aluOf_and_z, BitVec.getLsbD_and, BitVec.getLsbD_not, getLsbD_srRead_upper s.sr hk,
        getLsbD_one_shiftLeft _ h16, decide_eq_true h16, Bool.true_and]
    · have not_level : k ≠ 8 + n := by omega
      simp [not_level]
  refine ⟨_, exec_eq (.and maskStatus) s, bits, fun hlevel => ?_⟩
  have entered := level_of_bit_cleared h1 h5 bits hlevel
  exact ⟨entered, fetchAddress_of_level (execute_phase_of_run _ rfl) entered⟩

/-! ### The jump -/

/-- `add cond hf #label,-,=`. -/
def jump (g : Guard) : Instr := .add { plain false .immediate .absent .same with guard := g }

/-- The label, to which an absent y operand adds 0. -/
theorem execute_x_jump (g : Guard) (s : State) (h : s.y + 1 ≠ pca s) :
    (execute (aluOf (jump g)) (jump g).format s).x = memRead s (s.y + 1) := by
  have plain : xsrEff (jump g).format = false := Bool.and_false _
  have hx : xv (jump g).format s = memRead s (s.y + 1) := by
    rw [xv_of_plain _ s plain, xOperand_of_immediate rfl h]
  have hy : yv (jump g).format s = 0 := yv_of_absent s rfl
  rw [execute_x_eq, hx, hy]
  exact (addOut_z _ _ false).trans (by simp [bit])

/-- Settles O39. -/
theorem jumpWritesCurrentPc : Obligations.JumpWritesCurrentPc := by
  intro s g h
  have taken : executes g s.sr = true →
      memRead (execute (aluOf (jump g)) (jump g).format s) (pca s) = memRead s (s.y + 1) := fun hrun =>
    (memRead_execute_of_result (i := jump g) (.inl ⟨rfl, hrun, rfl⟩)).trans (execute_x_jump g s h)
  refine ⟨_, exec_eq (jump g) s, ?cell, fun hrun hrec => ?next⟩
  case cell =>
    split <;> rename_i hrun
    · exact taken hrun
    · have fails : executes (jump g).format.guard s.sr = false := Bool.eq_false_iff.mpr hrun
      rw [memRead_execute_of_no_result (no_result_of_not_run fails _), readPast, if_pos rfl]
      rfl
  case next =>
    have no_store : stores (jump g) s = false := Bool.and_false _
    have hsr : (execute (aluOf (jump g)) (jump g).format s).sr = s.sr := by
      rw [execute_sr_of_hf rfl hrec, no_store]
      rfl
    rw [fetchAddress_of_p0 (execute_phase_of_run _ hrun), pca_of_sr_eq s _ hsr, taken hrun]

/-! ### The status register in memory -/

/-- `or tr hf &-,-,dst`. -/
def storeStatus : Instr :=
  .or { plain false .absent .absent .direct with x := { sr := true, io := false, mode := .absent } }

theorem execute_x_storeStatus (s : State) :
    (execute (aluOf storeStatus) storeStatus.format s).x = s.sr &&& 0x3F0F := by
  have hx : xv storeStatus.format s = s.sr &&& 0x3F0F := xv_of_sr_absent _ s rfl rfl
  have hy : yv storeStatus.format s = 0 := yv_of_absent s rfl
  rw [execute_x_eq, hx, hy]
  exact BitVec.or_zero

/-- Settles O41. -/
theorem statusRegisterIsStored : Obligations.StatusRegisterIsStored := by
  intro s i hram
  have stored : resultGoesTo storeStatus s (targetOf storeStatus s) := .inr ⟨rfl, rfl, hram, rfl⟩
  exact ⟨_, exec_eq storeStatus s, (memRead_execute_of_result stored).trans (execute_x_storeStatus s)⟩

end Sys2Proof.Machine
end

section
/-! The jump to itself (44_control_sr_io_forms.md R205; 92_eei_decisions.md D18): the step repeats as long as nothing is recorded,
and a request above the level leaves the loop (60_exceptions.md R256, R259). -/

namespace Sys2Proof.Machine

open Claims

/-! ### Operands of states that read alike -/

/-- The two states have the same words in memory, the same `sr`, and the same address in Y. -/
structure ReadsAlike (s t : State) : Prop where
  read : ∀ a, memRead t a = memRead s a
  sr : t.sr = s.sr
  y : t.y = s.y

section
variable {s t : State} (h : ReadsAlike s t)
include h

theorem ReadsAlike.lastRead (cell : Word) (n : Nat) (a : Word) : lastRead t cell n a = lastRead s cell n a := by
  have once : ∀ b, readPast t cell b = readPast s cell b := by
    intro b
    rw [readPast, readPast, pca_of_sr_eq s t h.sr, h.read]
  induction n generalizing a with
  | zero => rfl
  | succ n ih => rw [lastRead_succ, lastRead_succ, ih, once]

/-- An x operand that the platform has no part in. -/
theorem ReadsAlike.xOperand {f : Format} (hio : readsIo f = false) : xOperand f t = xOperand f s := by
  unfold readsIo at hio
  unfold Claims.xOperand
  cases hm : f.x.mode with
  | absent => rfl
  | immediate => simp only [h.lastRead, h.y]
  | direct | indirect =>
    have memory : xioEff f = false := by simpa [hm] using hio
    simp only [memory, Bool.false_eq_true, if_false, h.lastRead, h.y]

theorem ReadsAlike.xv {f : Format} (hio : readsIo f = false) : xv f t = xv f s := by
  cases hsr : xsrEff f with
  | false => rw [xv_of_plain f t hsr, xv_of_plain f s hsr, h.xOperand hio]
  | true =>
    by_cases hm : f.x.mode = .absent
    · rw [xv_of_sr_absent f t hsr hm, xv_of_sr_absent f s hsr hm, h.sr]
    · rw [xv_of_sr f t hsr hm, xv_of_sr f s hsr hm, h.xOperand hio, h.sr]

theorem ReadsAlike.yv (f : Format) : yv f t = yv f s := by
  have address : yWordAddress f t = yWordAddress f s := by rw [yWordAddress, yWordAddress, h.y]
  rw [yv_eq, yv_eq, address, h.lastRead]

/-- An instruction that does not read the I/O space has the same result in both. -/
theorem ReadsAlike.execute_x {i : Instr} (hio : readsIo i.format = false) :
    (execute (aluOf i) i.format t).x = (execute (aluOf i) i.format s).x := by
  rw [execute_x_eq, execute_x_eq, h.xv hio, h.yv, h.sr]

end

/-! ### The step -/

theorem fetch_y (s : State) : (fetch s).y = fetchAddress s := by rw [fetch_eq]

theorem memRead_fetch (s : State) (a : Word) : memRead (fetch s) a = memRead s a :=
  memRead_of_mem_eq s _ a (fetch_mem s)

theorem pca_fetch (s : State) : pca (fetch s) = pca s := pca_of_sr_eq s _ (fetch_sr s)

theorem recorded_fetch (s : State) : recorded (fetch s) = recorded s := by
  rw [fetch_eq]
  rfl

theorem noRequestEver_fetch {s : State} (h : noRequestEver s) : noRequestEver (fetch s) := by
  rw [fetch_eq]
  exact h

theorem decodeWord_fetch_ir (s : State) : decodeWord (fetch s).ir = nextInstr s := by
  rw [fetch_eq]
  rfl

/-- The state after a step. -/
def stepped (s : State) : State := execute (aluOf (nextInstr s)) (nextInstr s).format (fetch s)

theorem step_eq_stepped (s : State) : step s = .next (stepped s) := by
  rw [step, decodeWord_fetch_ir, exec_eq]
  rfl

/-! ### What a self-jump is -/

/-- The next instruction is executed, of class P, has its own address as its result, and nothing is pending (R205). -/
structure SelfJump (s : State) : Prop where
  pc : destination (nextInstr s).format = .pc
  run : executes (nextInstr s).format.guard s.sr = true
  latch : s.latch = 0
  result : (stepped s).x = fetchAddress s

/-- An executed step of class P leaves its result in the PC cell. -/
theorem memRead_stepped_pca {s : State} (hpc : destination (nextInstr s).format = .pc)
    (hrun : executes (nextInstr s).format.guard s.sr = true) : memRead (stepped s) (pca s) = (stepped s).x :=
  memRead_execute_of_result (.inl ⟨hpc, by rwa [fetch_sr], (pca_fetch s).symm⟩)

theorem selfJumpNext_iff (s : State) : selfJumpNext s = true ↔ SelfJump s := by
  have lands := memRead_stepped_pca (s := s)
  simp only [selfJumpNext, exec_eq, decodeWord_fetch_ir, fetch_y, Bool.and_eq_true, decide_eq_true_eq]
  change (((_ ∧ _) ∧ _) ∧ memRead (stepped s) (pca s) = _) ↔ _
  constructor
  · rintro ⟨⟨⟨hpc, hrun⟩, hlatch⟩, hcell⟩
    exact ⟨hpc, hrun, hlatch, (lands hpc hrun).symm.trans hcell⟩
  · rintro ⟨hpc, hrun, hlatch, hresult⟩
    exact ⟨⟨⟨hpc, hrun⟩, hlatch⟩, (lands hpc hrun).trans hresult⟩

/-- Nothing pending, and interrupts disabled or no request to come: nothing is recorded (R254). -/
theorem recorded_of_quiet {s : State} (hlatch : s.latch = 0) (h : flagIe s.sr = false ∨ noRequestEver s) :
    recorded s = 0 := by
  unfold recorded
  rcases h with hie | hquiet
  · simp [hie, hlatch]
  · simp [hlatch, linesSeen_of_noRequestEver s hquiet]

/-! ### A self-jump's step -/

section
variable {s : State} (h : SelfJump s)
include h

theorem SelfJump.run_fetch : executes (nextInstr s).format.guard (fetch s).sr = true := by
  rw [fetch_sr]
  exact h.run

theorem SelfJump.no_store : stores (nextInstr s) (fetch s) = false := by
  simp [stores, isStore, h.pc]

theorem SelfJump.phase : (stepped s).phase = .p0 := execute_phase_of_run _ h.run_fetch

theorem SelfJump.latch_stepped : (stepped s).latch = 0 :=
  (execute_latch _ _ _).trans (if_pos h.run_fetch)

/-- In P0 the PC cell holds the address of the jump before and after. -/
theorem SelfJump.memRead_stepped (hp : s.phase = .p0) (a : Word) : memRead (stepped s) a = memRead s a := by
  by_cases ha : a = pca s
  · rw [ha, memRead_stepped_pca h.pc h.run, h.result, fetchAddress_of_p0 hp]
  · have off_cell : a ≠ pca (fetch s) := by rwa [pca_fetch]
    have no_result : ¬ resultGoesTo (nextInstr s) (fetch s) a := by
      rintro (⟨-, -, hcell⟩ | ⟨hstore, -⟩)
      · exact off_cell hcell
      · rw [h.no_store] at hstore
        cases hstore
    exact (memRead_execute_of_no_result no_result).trans ((if_neg off_cell).trans (memRead_fetch s a))

theorem SelfJump.sr_stepped (hf : (nextInstr s).format.setFlags = false) (hrec : recorded s = 0) :
    (stepped s).sr = s.sr := by
  have kept := execute_sr_of_hf (i := nextInstr s) (s := fetch s) hf ((recorded_fetch s).trans hrec)
  rw [h.no_store] at kept
  exact kept.trans (fetch_sr s)

theorem SelfJump.ioTrace_stepped (hio : readsIo (nextInstr s).format = false) : (stepped s).ioTrace = s.ioTrace := by
  have trace := execute_ioTrace_of_operandState (nextInstr s) (fetch s)
  rw [operandState_ioTrace, h.no_store, hio] at trace
  simp only [Bool.false_and, Bool.false_eq_true, if_false, List.append_nil] at trace
  rw [stepped, trace, fetch_eq]

/-- The requests recorded in the jump take effect at its end (R256). -/
theorem SelfJump.level_stepped : level (stepped s).sr = level (clearLevels (recorded s) s.sr) := by
  refine level_congr fun k h9 h14 => ?_
  have upper : (stepped s).sr.getLsbD k = _ := execute_upper (nextInstr s) (fetch s) k (by omega) h14
  have line : k - 9 < 5 := by omega
  rw [h.no_store, h.run_fetch, recorded_fetch, fetch_sr] at upper
  rw [getElem_clearLevels, dif_pos ⟨h9, h14⟩]
  simpa [BitVec.getLsbD_eq_getElem (show k < 16 by omega), BitVec.getLsbD_eq_getElem line, h9] using upper

end

/-! ### The run has ended -/

/-- The state after the step begins the same jump from the same state, as far as the jump can see. -/
theorem SelfJump.again {s : State} (h : SelfJump s) (hp : s.phase = .p0) (hf : (nextInstr s).format.setFlags = false)
    (hio : readsIo (nextInstr s).format = false) (hrec : recorded s = 0) :
    nextInstr (stepped s) = nextInstr s ∧ SelfJump (stepped s) := by
  have read := h.memRead_stepped hp
  have hsr := h.sr_stepped hf hrec
  have address : fetchAddress (stepped s) = fetchAddress s := by
    rw [fetchAddress_of_p0 h.phase, fetchAddress_of_p0 hp, pca_of_sr_eq s _ hsr, read]
  have same : nextInstr (stepped s) = nextInstr s := by
    rw [nextInstr, nextInstr, address, read]
  have alike : ReadsAlike (fetch s) (fetch (stepped s)) :=
    ⟨fun a => by rw [memRead_fetch, memRead_fetch, read], by rw [fetch_sr, fetch_sr, hsr],
      by rw [fetch_y, fetch_y, address]⟩
  have result : (stepped (stepped s)).x = (stepped s).x := by
    rw [stepped, same]
    exact alike.execute_x hio
  exact ⟨same, by rw [same]; exact h.pc, by rw [same, hsr]; exact h.run, h.latch_stepped,
    by rw [result, address]; exact h.result⟩

/-- Settles O44: one step of a self-jump changes nothing that the jump depends on. -/
theorem endedRunStays : Obligations.EndedRunStays := by
  rintro s ⟨hjump, hquiet⟩ hp hf hio
  have jump := (selfJumpNext_iff s).mp hjump
  have hrec := recorded_of_quiet jump.latch hquiet
  have hsr := jump.sr_stepped hf hrec
  obtain ⟨same, again⟩ := jump.again hp hf hio hrec
  have still_quiet : flagIe (stepped s).sr = false ∨ noRequestEver (stepped s) := by
    rw [hsr]
    exact hquiet.imp_right fun h => noRequestEver_execute _ _ _ (noRequestEver_fetch h)
  exact ⟨_, step_eq_stepped s, hsr, jump.latch_stepped, jump.memRead_stepped hp, jump.ioTrace_stepped hio, jump.phase,
    same, (selfJumpNext_iff _).mpr again, still_quiet⟩

/-- The jump of R190 to its own address. -/
theorem selfJump_of_jump {s : State} (hlatch : s.latch = 0) (hi : nextInstr s = jump .tr)
    (hcell : fetchAddress s + 1 ≠ pca s) (hlabel : memRead s (fetchAddress s + 1) = fetchAddress s) : SelfJump s := by
  have result : (stepped s).x = fetchAddress s := by
    have off_cell : (fetch s).y + 1 ≠ pca (fetch s) := by rwa [fetch_y, pca_fetch]
    rw [stepped, hi, execute_x_jump _ _ off_cell, fetch_y, memRead_fetch, hlabel]
  exact ⟨by rw [hi]; rfl, by rw [hi]; rfl, hlatch, result⟩

/-- Settles O43: this jump is one of those that end a run. -/
theorem selfJumpRepeats : Obligations.SelfJumpRepeats := by
  intro s hp hquiet hlatch hi hcell hlabel
  have ended : runEnded s := ⟨(selfJumpNext_iff s).mpr (selfJump_of_jump hlatch hi hcell hlabel), hquiet⟩
  obtain ⟨t, hstep, hsr, hl, hread, -, hphase, -, still⟩ :=
    endedRunStays s ended hp (by rw [hi]; rfl) (by rw [hi]; rfl)
  exact ⟨ended, t, hstep, hsr, hl, hread, hphase, still⟩

/-! ### The idle loop -/

/-- A request above the level has been seen, so that some line is active. -/
theorem not_noRequestEver_of_lt {s : State} {n : Nat} (h : n < highest (linesSeen s)) : ¬ noRequestEver s := by
  intro hquiet
  rw [linesSeen_of_noRequestEver s hquiet] at h
  exact absurd h (Nat.not_lt_zero n)

/-- Settles O45: with `ie = 1` and an empty latch exactly the lines seen are recorded, and they decide the level. -/
theorem requestLeavesIdleLoop : Obligations.RequestLeavesIdleLoop := by
  intro s hie hjump hlevel
  have jump := (selfJumpNext_iff s).mp hjump
  have not_quiet := not_noRequestEver_of_lt hlevel
  have not_ended : ¬ runEnded s := by
    rintro ⟨-, hoff | hquiet⟩
    · rw [hie] at hoff
      cases hoff
    · exact not_quiet hquiet
  have hrec : recorded s = linesSeen s := by
    simp [recorded, hie, jump.latch]
  have left : level (stepped s).sr = highest (linesSeen s) := by
    rw [jump.level_stepped, hrec, level_clearLevels_of_lt hlevel]
  exact ⟨not_quiet, not_ended, _, step_eq_stepped s, left, fetchAddress_of_level jump.phase left⟩

end Sys2Proof.Machine
end

section
/-! The ALU block (48_sequencer_and_datapath.md R225): its row for an operation, found by the four bits `ALU3..ALU0`, puts out
what the operation's description says (R150 to R178). -/

namespace Sys2Proof.Machine

open Sequencer Claims

/-- The block's row for `op` has the result, carry and overflow of `alu`; V is defined in the arithmetic group alone. -/
def BlockAgrees (op : BitVec 4) (alu : Word → Word → Bool → AluOut) : Prop :=
  ∀ (x y : Word) (c : Bool), aluBlock op x y c = ((alu x y c).z, (alu x y c).c) ∧
    (alu x y c).v = if definesV op then .defined (aluBlockV op x y c) else .undefined (aluBlockV op x y c)

/-! ### Arithmetic: the words' sum and difference are the exact ones modulo 2^16 -/

theorem blockAgrees_add : BlockAgrees 0x0 aluAdd := fun x y _ =>
  ⟨Prod.ext ((addOut_z x y false).trans (BitVec.add_zero _)).symm rfl, rfl⟩

theorem blockAgrees_addc : BlockAgrees 0x8 aluAddc := fun x y c =>
  ⟨Prod.ext (addOut_z x y c).symm rfl, rfl⟩

theorem blockAgrees_sub : BlockAgrees 0x4 aluSub := fun x y _ =>
  ⟨Prod.ext ((subOut_z_eq_bit x y false).trans (BitVec.sub_zero _)).symm (subOut_c x y false).symm, rfl⟩

theorem blockAgrees_subc : BlockAgrees 0xC aluSubc := fun x y c =>
  ⟨Prod.ext (subOut_z_eq_bit x y c).symm (subOut_c x y c).symm, rfl⟩

/-! ### Logic: one bitwise operation on both sides -/

theorem blockAgrees_nor : BlockAgrees 0x1 aluNor := fun _ _ _ => ⟨rfl, rfl⟩
theorem blockAgrees_and : BlockAgrees 0x5 aluAnd := fun _ _ _ => ⟨rfl, rfl⟩
theorem blockAgrees_eor : BlockAgrees 0x9 aluEor := fun _ _ _ => ⟨rfl, rfl⟩
theorem blockAgrees_or : BlockAgrees 0xD aluOr := fun _ _ _ => ⟨rfl, rfl⟩

/-! ### Shift, rotate, swap: the block rotates or shifts the word, the description moves its bits and fills the free place -/

/-- The bits of a word moved to the right. -/
theorem getElem_rightOne (top : Bool) (x : Word) (k : Nat) (hk : k < 16) :
    (rightOne top x)[k] = if h : k < 15 then x[k + 1] else top := by
  obtain ⟨hlast, hmoved⟩ := isRightShift_rightOne x top
  split
  · exact hmoved k ‹_›
  · obtain rfl : k = 15 := by omega
    exact hlast

/-- The bits of a word moved to the left. -/
theorem getElem_leftOne (x : Word) (low : Bool) (k : Nat) (hk : k < 16) :
    (leftOne x low)[k] = if k = 0 then low else x[k - 1] := by
  obtain ⟨hfirst, hmoved⟩ := isLeftShift_leftOne x low
  split
  · subst k
    exact hfirst
  · obtain ⟨j, rfl⟩ : ∃ j, k = j + 1 := ⟨k - 1, by omega⟩
    exact hmoved j (by omega)

theorem rotateRight_eq_rightOne (x : Word) : x.rotateRight 1 = rightOne x[0] x := by
  ext k hk
  rw [getElem_rightOne]
  interval_cases k <;> simp [BitVec.getElem_rotateRight]

theorem rotateRight_carry_eq_rightOne (x : Word) (c : Bool) :
    (x.rotateRight 1 &&& 0x7FFF) ||| (if c then 0x8000 else 0) = rightOne c x := by
  ext k hk
  rw [getElem_rightOne]
  cases c <;> interval_cases k <;> simp [BitVec.getElem_rotateRight]

theorem sshiftRight_eq_rightOne (x : Word) : x.sshiftRight 1 = rightOne x[15] x := by
  ext k hk
  rw [getElem_rightOne]
  interval_cases k <;> simp [BitVec.getElem_sshiftRight, BitVec.msb_eq_getLsbD_last]

theorem ushiftRight_eq_rightOne (x : Word) : x >>> 1 = rightOne false x := by
  simp [rightOne, placeField]

theorem rotateLeft_eq_leftOne (x : Word) : x.rotateLeft 1 = leftOne x x[15] := by
  ext k hk
  rw [getElem_leftOne]
  interval_cases k <;> simp [BitVec.getElem_rotateLeft]

theorem rotateLeft_carry_eq_leftOne (x : Word) (c : Bool) :
    (x.rotateLeft 1 &&& 0xFFFE) ||| (if c then 1 else 0) = leftOne x c := by
  ext k hk
  rw [getElem_leftOne]
  cases c <;> interval_cases k <;> simp [BitVec.getElem_rotateLeft]

theorem shiftLeft_eq_leftOne (x : Word) : x <<< 1 = leftOne x false := by
  simp [leftOne, placeField]

theorem swappedBytes_eq (x y : Word) :
    placeField (y.extractLsb' 0 8) 8 ||| placeField (x.extractLsb' 8 8) 0 = (y <<< 8) ||| (x >>> 8) := by
  ext k hk
  interval_cases k <;> simp [placeField]

theorem blockAgrees_ror : BlockAgrees 0x2 aluRor := fun x _ _ => ⟨Prod.ext (rotateRight_eq_rightOne x) rfl, rfl⟩
theorem blockAgrees_rorc : BlockAgrees 0x6 aluRorc := fun x _ c => ⟨Prod.ext (rotateRight_carry_eq_rightOne x c) rfl, rfl⟩
theorem blockAgrees_asr : BlockAgrees 0xA aluAsr := fun x _ _ => ⟨Prod.ext (sshiftRight_eq_rightOne x) rfl, rfl⟩
theorem blockAgrees_lsr : BlockAgrees 0xE aluLsr := fun x _ _ => ⟨Prod.ext (ushiftRight_eq_rightOne x) rfl, rfl⟩
theorem blockAgrees_rol : BlockAgrees 0x3 aluRol := fun x _ _ => ⟨Prod.ext (rotateLeft_eq_leftOne x) rfl, rfl⟩
theorem blockAgrees_rolc : BlockAgrees 0x7 aluRolc := fun x _ c => ⟨Prod.ext (rotateLeft_carry_eq_leftOne x c) rfl, rfl⟩
theorem blockAgrees_asl : BlockAgrees 0xB aluAsl := fun x _ _ => ⟨Prod.ext (shiftLeft_eq_leftOne x) rfl, rfl⟩
theorem blockAgrees_bswp : BlockAgrees 0xF aluBswp := fun x y _ => ⟨Prod.ext (swappedBytes_eq x y) rfl, rfl⟩

/-! ### All sixteen -/

/-- An instruction's operation field selects its own row of the block. -/
theorem blockAgrees_aluOf (i : Instr) : BlockAgrees i.opcode (aluOf i) := by
  cases i with
  | add => exact blockAgrees_add
  | nor => exact blockAgrees_nor
  | ror => exact blockAgrees_ror
  | rol => exact blockAgrees_rol
  | sub => exact blockAgrees_sub
  | and => exact blockAgrees_and
  | rorc => exact blockAgrees_rorc
  | rolc => exact blockAgrees_rolc
  | addc => exact blockAgrees_addc
  | eor => exact blockAgrees_eor
  | asr => exact blockAgrees_asr
  | asl | lsl => exact blockAgrees_asl
  | subc => exact blockAgrees_subc
  | or => exact blockAgrees_or
  | lsr => exact blockAgrees_lsr
  | bswp => exact blockAgrees_bswp

/-- Settles O26: row by row, in the groups of R225. -/
theorem aluBlockAgreesWithDescriptions : Obligations.AluBlockAgreesWithDescriptions := fun x y c =>
  ⟨blockAgrees_add x y c, blockAgrees_sub x y c, blockAgrees_addc x y c, blockAgrees_subc x y c,
    blockAgrees_nor x y c, blockAgrees_and x y c, blockAgrees_eor x y c, blockAgrees_or x y c,
    blockAgrees_ror x y c, blockAgrees_rorc x y c, blockAgrees_asr x y c, blockAgrees_lsr x y c,
    blockAgrees_rol x y c, blockAgrees_rolc x y c, blockAgrees_asl x y c, blockAgrees_bswp x y c⟩

end Sys2Proof.Machine
end

section
/-! The sequencer's equations against its tables (48_sequencer_and_datapath.md R211, R213, R216, R217). -/

namespace Sys2Proof.Machine.Sequencer

/-! ### The output equations -/

/-- The signals are those of a row of the control-signal table, wherever the row is not "don't care". -/
structure Row.Allows (row : Row) (out : Signals) : Prop where
  eb : ∀ v, row.eb = some v → out.eb = v
  ey : ∀ v, row.ey = some v → out.ey = v
  ex : ∀ v, row.ex = some v → out.ex = v
  gy : ∀ v, row.gy = some v → out.gy = v
  gx1 : ∀ v, row.gx1 = some v → out.gx1 = v
  gx0 : ∀ v, row.gx0 = some v → out.gx0 = v
  ga : ∀ v, row.ga = some v → out.ga = v
  al4 : ∀ v, row.al4 = some v → out.al4 = v
  al : ∀ v, row.al = some v → out.al = v
  io : out.io = row.io
  mem : out.mem = row.mem
  rw : out.rw = row.rw

/-- An entry allows a value that it becomes when "don't care" is settled as that value. -/
theorem allows_of_getD {α : Type} {entry : Option α} {a : α} (h : entry.getD a = a) (v : α) (hv : entry = some v) :
    a = v := by
  rw [hv] at h
  exact h.symm

/-- Only phases 6, 12, 14 and 17 have entries that depend on the instruction word or on `CC`; the other rows are constant. -/
theorem controlTable_allows_outputs (b : Word) (cc : Bool) (p : Phase) :
    (controlTable b cc p).Allows (outputs b cc p) := by
  cases p with
  | p6 | p12 | p14 | p17 => constructor <;> simp [controlTable, readRow, incrementRow, outputs, isIn]
  | p0 | p1 | p2 | p3 | p4 | p5 | p7 | p8 | p9 | p10 | p11 | p13 | p15 | p16 =>
    constructor
    case io | mem | rw => rfl
    all_goals exact allows_of_getD rfl

/-- Settles O50. -/
theorem outputEquationsMatchTable : Obligations.OutputEquationsMatchTable := by
  intro b cc p row out
  obtain ⟨eb, ey, ex, gy, gx1, gx0, ga, al4, al, io, mem, rw⟩ := controlTable_allows_outputs b cc p
  exact ⟨eb, ey, ex, gy, gx1, gx0, ga, al4, al, io, mem, rw⟩

/-! ### The printed flip-flop inputs -/

/-- Phase 2 leads to phase 3, 8, 9 or 12. -/
theorem afterPhaseTwo_nextPhase_p2 (b : Word) (cc : Bool) : afterPhaseTwo (nextPhase b cc .p2) = true := by
  rw [nextPhase_p2, yStart]
  repeat' split
  all_goals rfl

/-- Where the next phase comes after P2, the flip-flops of P0, P1 and P2 stay off. -/
theorem off_of_afterPhaseTwo {p : Phase} (h : afterPhaseTwo p = true) :
    false = decide (p = .p0) ∧ false = decide (p = .p1) ∧ false = decide (p = .p2) := by
  cases p with
  | p0 | p1 | p2 => cases h
  | _ => exact ⟨rfl, rfl, rfl⟩

/-- `D0`, `D1` and `D2` announce phases 0, 1 and 2: an instruction ends in phase 12, 14 or 17, and no other phase
after the first two leads back to them. -/
theorem firstFlipFlops_eq (b : Word) (cc : Bool) (p : Phase) :
    d0 b p = decide (nextPhase b cc p = .p0) ∧ d1 cc p = decide (nextPhase b cc p = .p1) ∧
      d2 p = decide (nextPhase b cc p = .p2) := by
  cases p with
  | p0 | p1 | p17 => exact ⟨rfl, rfl, rfl⟩
  | p12 => cases h9 : c9 b <;> cases h8 : c8 b <;> simp [d0, d1, d2, isIn, nextPhase, h9, h8]
  | p14 =>
    cases cc with
    | false => exact ⟨rfl, rfl, rfl⟩
    | true => exact off_of_afterPhaseTwo (afterPhaseTwo_nextPhase rfl rfl)
  | p2 => exact off_of_afterPhaseTwo (afterPhaseTwo_nextPhase_p2 b cc)
  | p3 | p4 | p5 | p6 | p7 | p8 | p9 | p10 | p11 | p13 | p15 | p16 =>
    exact off_of_afterPhaseTwo (afterPhaseTwo_nextPhase rfl rfl)

/-- `R3` is on in every successor of phase 2 but phase 3. -/
theorem r3_nextPhase_p2 (b : Word) (cc : Bool) :
    r3 (nextPhase b cc .p2) = true ↔ nextPhase b cc .p2 ≠ .p3 := by
  rw [nextPhase_p2, yStart]
  repeat' split
  all_goals decide

/-- Settles O51. -/
theorem printedFlipFlopInputs : Obligations.PrintedFlipFlopInputs := by
  intro b cc p
  obtain ⟨h0, h1, h2⟩ := firstFlipFlops_eq b cc p
  have h3 : d3 p = true ↔ p = .p2 := by simp [d3, isIn]
  exact ⟨h0, h1, h2, h3, r3_nextPhase_p2 b cc⟩

end Sys2Proof.Machine.Sequencer
end

section
/-! The sequencer makes the step (48_sequencer_and_datapath.md R210 to R226 against 40_execution_sequence.md R110 to R122):
phases 0 to 2 fetch, phases 3 to 11 read the operands, phase 12 is the ALU phase, phases 13 to 17 store the result. -/

namespace Sys2Proof.Machine.Sequencer

/-! ### Phase 12 -/

section
variable (b : Word)

theorem f7_eq : f7 b = zsrEff (decodeFormat b) := by
  unfold f7 zsrEff decodeFormat
  cases b[11] <;> cases b[13] <;> rfl

/-- The block's row for an instruction word is that of the instruction decoded. -/
theorem aluBlock_eq (x y : Word) (c : Bool) : aluBlock (b.extractLsb' 0 4) x y c =
    ((aluOf (decodeWord b) x y c).z, (aluOf (decodeWord b) x y c).c) := by
  rw [← decodeWord_opcode]
  obtain ⟨result_and_carry, -⟩ := blockAgrees_aluOf (decodeWord b) x y c
  exact result_and_carry

/-- The block's `VF` column is the overflow of the instruction decoded. -/
theorem overflow_eq (x y : Word) (c : Bool) : (aluOf (decodeWord b) x y c).v =
    if definesV (b.extractLsb' 0 4) then .defined (aluBlockV (b.extractLsb' 0 4) x y c)
    else .undefined (aluBlockV (b.extractLsb' 0 4) x y c) := by
  rw [← decodeWord_opcode]
  obtain ⟨-, overflow⟩ := blockAgrees_aluOf (decodeWord b) x y c
  exact overflow

end

section
variable (s : State) (cc : Bool)

/-- What the ALU computes from the operands that are read in `s`, for the instruction in the instruction register. -/
def aluOut : AluOut := aluResult (aluOf (decodeWord s.ir)) (decodeFormat s.ir) s

/-- The state after the ALU phase of the instruction in the instruction register. -/
def aluPhaseDone : State := aluPhase (aluOf (decodeWord s.ir)) cc (decodeFormat s.ir) s

theorem phase12Result_eq : phase12Result s = ((aluOut s).z, (aluOut s).c) := by
  rw [phase12Result, ← xInput_eq_xmux, ← yInput_eq_ygate, aluBlock_eq]
  rfl

theorem phase12Sr_eq : phase12Sr s cc = srAfterAlu cc (decodeFormat s.ir) (aluOut s) s := by
  have flags : flagsOut (outputs s.ir cc .p12) s (xmux (f3 s.ir) (f4 s.ir) s.sr s.x) (ygate (f2 s.ir) s.y) (flagC s.sr) =
      if zsrEff (decodeFormat s.ir) then withFlagsFrom s.sr (aluOut s).z else withAluFlags s (aluOut s) := by
    have al : (outputs s.ir cc .p12).al = s.ir.extractLsb' 0 4 := rfl
    have al4 : (outputs s.ir cc .p12).al4 = zsrEff (decodeFormat s.ir) := f7_eq s.ir
    rw [flagsOut, al, al4, ← xInput_eq_xmux, ← yInput_eq_ygate, aluBlock_eq, ← overflow_eq]
    rfl
  rw [phase12Sr, flags]
  rfl

/-- Phase 12 is the ALU phase, with the store to the PC cell in the "Besonderheit" case. -/
theorem phase12State_eq : phase12State s cc =
    if decide (destination (decodeFormat s.ir) = .pc) && cc
    then memWrite (aluPhaseDone s cc) (pca s) (aluOut s).z else aluPhaseDone s cc := by
  rw [phase12State, phase12Sr_eq, phase12Result_eq, f10_eq]
  cases decide (destination (decodeFormat s.ir) = .pc) && cc <;> rfl

/-! ### The end of the instruction -/

/-- The sequencer's end of an instruction is that of the common sequence if the next phase is the one it names. -/
theorem endOfInstruction_eq_finish {next : Phase} {f : Format} (h : next = .p0 ↔ (isStore f && !cc) = false) :
    endOfInstruction cc next s = finish cc f s := by
  unfold endOfInstruction finish phaseAfter
  cases hr : isStore f && !cc <;> simp [h, hr]

end

/-! ### The store -/

theorem destination_of_isStore {f : Format} (h : isStore f = true) : ∃ reads, destination f = .store reads := by
  unfold isStore at h
  split at h
  · cases h
  · cases h
  · exact ⟨_, ‹_›⟩

theorem destination_store_le {f : Format} {n : Nat} (h : destination f = .store n) : n ≤ 2 := by
  unfold destination at h
  cases hz : f.z.mode <;> cases hy : f.y <;> simp [hz, hy] at h <;> omega

/-- The number of words of address that phases 15 and 16 read. -/
def addressReads (b : Word) : Nat := if c9 b then (if c8 b then 2 else 1) else 0

theorem addressReads_of_store {b : Word} {n : Nat} (h : destination (decodeFormat b) = .store n) :
    addressReads b = n := by
  have few := destination_store_le h
  have bits := c9_c8 b
  rw [h, Prod.ext_iff] at bits
  obtain ⟨h9, h8⟩ := bits
  dsimp only at h9 h8
  rw [addressReads, h9, h8]
  match n, few with
  | 0, _ | 1, _ | 2, _ => rfl

/-- Phase 17 of an executed instruction: the store, the upper half of `sr` under `&`, and the end. -/
theorem microStep_p17_st (s : State) (a : List Access) (n : Nat) :
    (microStep ⟨s, .p17, true, a, n⟩).st =
      endOfInstruction true .p0 (writeHigh (decodeFormat s.ir) (storeResult (decodeFormat s.ir) s)) := by
  rw [microStep_p17, f9_eq, f7_eq, storeResult, writeHigh]
  cases zioEff (decodeFormat s.ir) <;> cases zsrEff (decodeFormat s.ir) <;> rfl

/-- Phases 15 to 17. -/
theorem run_address_and_store (s : State) (a : List Access) (n k : Nat) :
    (runPhases (k + 3) ⟨s, if c9 s.ir then .p15 else .p17, true, a, n⟩).st =
      endOfInstruction true .p0 (writeHigh (decodeFormat s.ir)
        (storeResult (decodeFormat s.ir) (followAddress (addressReads s.ir) s))) := by
  unfold addressReads
  cases h9 : c9 s.ir with
  | false => exact (congrArg Micro.st (run_store s true a n (k + 2))).trans (microStep_p17_st s a n)
  | true =>
    cases h8 : c8 s.ir with
    | false =>
      exact (congrArg Micro.st (run_store_direct s true a n (k + 1) h8)).trans (microStep_p17_st (followY s) _ _)
    | true =>
      exact (congrArg Micro.st (run_store_indirect s true a n k h8)).trans
        (microStep_p17_st (followY (followY s)) _ _)

/-- Phases 13 to 17. -/
theorem run_z {s : State} {reads : Nat} (h : destination (decodeFormat s.ir) = .store reads) (cc : Bool)
    (a : List Access) (n k : Nat) :
    (runPhases (k + 5) ⟨s, .p13, cc, a, n⟩).st =
      finish cc (decodeFormat s.ir) (writeResult cc (decodeFormat s.ir) s) := by
  have store := isStore_of_destination h
  unfold writeResult
  rw [h]
  cases cc with
  | false =>
    rw [run_z_not_executed]
    exact endOfInstruction_eq_finish _ _ (by simp [store])
  | true =>
    rw [run_z_executed, ← addressReads_of_store h]
    exact (run_address_and_store (stepToResult s) _ _ k).trans (endOfInstruction_eq_finish _ _ (by simp))

/-! ### From phase 12 on -/

section
variable {s : State} (cc : Bool)

/-- Phase 12 of an instruction of class S stores nothing. -/
theorem phase12State_of_store (h : isStore (decodeFormat s.ir) = true) : phase12State s cc = aluPhaseDone s cc := by
  obtain ⟨reads, hd⟩ := destination_of_isStore h
  simp [phase12State_eq, hd]

/-- Phase 12 of any other instruction does all that the destination asks for. -/
theorem phase12State_of_not_store (h : isStore (decodeFormat s.ir) = false) :
    phase12State s cc = writeResult cc (decodeFormat s.ir) (aluPhaseDone s cc) := by
  have cell : pca (aluPhaseDone s cc) = pca s := pca_aluPhase _ _ _ _
  rw [phase12State_eq, writeResult]
  cases hd : destination (decodeFormat s.ir) with
  | none => rfl
  | pc =>
    rw [cell]
    cases cc <;> rfl
  | store => simp [isStore_of_destination hd] at h

variable (a : List Access) (n k : Nat)

/-- Phase 12 of an instruction of class S leads to phase 13. -/
theorem microStep_p12_of_store (h : isStore (decodeFormat s.ir) = true) : ∃ a',
    microStep ⟨s, .p12, cc, a, n⟩ = ⟨aluPhaseDone s cc, .p13, cc, a', n + 1⟩ := by
  have stores := isStore_eq s.ir
  rw [h] at stores
  rw [microStep_p12, ← Bool.not_or, nextPhase, ← stores, phase12State_of_store cc h]
  exact ⟨_, rfl⟩

/-- Phase 12 of any other instruction is its last. -/
theorem microStep_p12_of_not_store (h : isStore (decodeFormat s.ir) = false) : (microStep ⟨s, .p12, cc, a, n⟩).st =
    finish cc (decodeFormat s.ir) (writeResult cc (decodeFormat s.ir) (aluPhaseDone s cc)) := by
  have stores := isStore_eq s.ir
  rw [h] at stores
  rw [microStep_p12, ← Bool.not_or, nextPhase, ← stores, phase12State_of_not_store cc h]
  exact endOfInstruction_eq_finish _ cc (by simp [h])

theorem endsInstruction_p12 (b : Word) : endsInstruction b cc .p12 = !isStore (decodeFormat b) := by
  rw [isStore_eq, Bool.not_or, endsInstruction]

/-- Phases 12 to 17: the ALU phase, the store and the end of the instruction. -/
theorem run_from_p12 : (runPhases (k + 6) ⟨s, .p12, cc, a, n⟩).st =
    finish cc (decodeFormat s.ir) (writeResult cc (decodeFormat s.ir) (aluPhaseDone s cc)) := by
  have ends : endsInstruction (microStep ⟨s, .p12, cc, a, n⟩).st.ir (microStep ⟨s, .p12, cc, a, n⟩).cc .p12 =
      !isStore (decodeFormat s.ir) := by
    rw [microStep_ir rfl, microStep_cc rfl, endsInstruction_p12]
  cases hs : isStore (decodeFormat s.ir) with
  | true =>
    obtain ⟨reads, hd⟩ := destination_of_isStore hs
    obtain ⟨a', stepped⟩ := microStep_p12_of_store cc a n hs
    rw [runPhases_succ _ _ (by rw [ends, hs]; rfl), stepped]
    exact run_z (s := aluPhaseDone s cc) hd cc a' (n + 1) k
  | false =>
    rw [runPhases_last _ _ (by rw [ends, hs]; rfl)]
    exact microStep_p12_of_not_store cc a n hs

end

/-! ### The whole instruction -/

theorem phases_begunMicro_le (s : State) : (begunMicro s).phases ≤ 3 := by
  unfold begunMicro
  dsimp only
  split <;> omega

theorem xPhases_le (f : Format) : xPhases f ≤ 4 := by
  unfold xPhases
  split <;> omega

theorem yPhases_le (f : Format) : yPhases f ≤ 5 := by
  unfold yPhases
  cases f.y <;> split_ifs <;> simp

/-- Three phases for the fetch, four and five for the operands, leave six of the eighteen for phases 12 to 17. -/
theorem phases_left (s : State) (f : Format) :
    ∃ k, 18 - (begunMicro s).phases = k + 6 + yPhases f + xPhases f := by
  have hb := phases_begunMicro_le s
  have hx := xPhases_le f
  have hy := yPhases_le f
  exact ⟨12 - (begunMicro s).phases - yPhases f - xPhases f, by omega⟩

/-- The state at the end of the phases is that of the common sequence, for the instruction fetched. -/
theorem runInstruction_st (s : State) : (runInstruction s).st =
    execute (aluOf (decodeWord (fetch s).ir)) (decodeFormat (fetch s).ir) (fetch s) := by
  obtain ⟨k, hk⟩ := phases_left s (decodeFormat (fetch s).ir)
  obtain ⟨a, operands⟩ :=
    run_operands (begunState (fetch s)) (fetchedCc s) (firstAccesses s) (begunMicro s).phases (k + 6)
  have result n :=
    run_from_p12 (s := operandState (decodeFormat (fetch s).ir) (fetch s)) (fetchedCc s) a n k
  rw [aluPhaseDone, operandState_ir] at result
  have run : fetchedCc s = executes (decodeFormat (fetch s).ir).guard (fetch s).sr := by rw [fetchedCc, fetch_sr]
  rw [runInstruction_eq, hk, execute, ← run]
  exact (congrArg Micro.st operands).trans (result _)

/-- Settles O46: phases 0 to 2 fetch, phases 3 to 11 read the operands, and from phase 12 on the sequencer finishes the
common sequence of the decoded instruction. -/
theorem sequencerMakesTheStep : Obligations.SequencerMakesTheStep := by
  intro s
  rw [step, exec_eq, decodeWord_format, runInstruction_st]

end Sys2Proof.Machine.Sequencer
end

section
/-! Interrupts (60_exceptions.md R250 to R265): nothing stops a step, requests decide the level, and a request above the level
takes over at the end of an executed instruction. -/

namespace Sys2Proof.Machine

open Claims

/-! ### No step stops -/

/-- Settles O7: a step executes an instruction, and every instruction, whichever word it comes from, goes on. -/
theorem everyStepGoesOn : Obligations.EveryStepGoesOn := by
  intro s
  rw [step_eq_stepped]
  rfl

/-! ### The level -/

/-- Settles O35. -/
theorem highestRequestDecidesLevel : Obligations.HighestRequestDecidesLevel := level_clearLevels

/-! ### Interrupt entry -/

section
variable {i : Instr} {s : State} (hrun : executes i.format.guard s.sr = true) (hz : zsrEff i.format = false)
include hrun hz

/-- An executed instruction without `&` on its result leaves bits 13:8 to the recorded requests (R121, R256). -/
theorem execute_upper_eq_clearLevels (k : Nat) (hk : k < 16) (h : 8 ≤ k ∧ k < 14) :
    (execute (aluOf i) i.format s).sr[k] = (clearLevels (recorded s) s.sr)[k] := by
  obtain ⟨h8, h14⟩ := h
  have upper := execute_upper i s k h8 h14
  simp only [hrun, hz, Bool.and_false, Bool.true_and, Bool.false_eq_true, if_false, BitVec.getLsbD_eq_getElem hk] at upper
  rw [upper, getElem_clearLevels]
  by_cases h9 : 9 ≤ k
  · have line : k - 9 < 5 := by omega
    simp [h9, h14, BitVec.getLsbD_eq_getElem line]
  · simp [h9]

theorem execute_level_eq_clearLevels :
    level (execute (aluOf i) i.format s).sr = level (clearLevels (recorded s) s.sr) :=
  level_congr fun k h9 h14 => execute_upper_eq_clearLevels hrun hz k (by omega) ⟨by omega, h14⟩

/-- Interrupt entry leaves `ie`, which is no level bit (R259, D9). -/
theorem execute_flagIe_of_no_status_write : flagIe (execute (aluOf i) i.format s).sr = flagIe s.sr := by
  have ie_bit := execute_upper_eq_clearLevels hrun hz 8 (by omega) (by omega)
  rwa [getElem_clearLevels, dif_neg (by omega)] at ie_bit

end

/-- Without a destination the result goes to no word of memory. -/
theorem no_result_of_no_destination {i : Instr} (hd : destination i.format = .none) (s : State) (a : Word) :
    ¬ resultGoesTo i s a := by
  simp [resultGoesTo, stores, isStore, hd]

/-- Settles O36: the recorded requests clear level bits of the old `sr`, and the highest of them is above the old level. The
interrupted level's cell has been stepped past the instruction in the course of it; entry itself saves nothing. -/
theorem interruptEntry : Obligations.InterruptEntry := by
  intro i s hrun hz hlevel
  have entered : level (execute (aluOf i) i.format s).sr = highest (recorded s) := by
    rw [execute_level_eq_clearLevels hrun hz, level_clearLevels_of_lt hlevel]
  have next_fetch := fetchAddress_of_level (execute_phase_of_run (aluOf i) hrun) entered
  have latch_empty : (execute (aluOf i) i.format s).latch = 0 := (execute_latch _ _ _).trans (if_pos hrun)
  refine ⟨_, exec_eq i s, entered, execute_flagIe_of_no_status_write hrun hz, latch_empty, next_fetch, fun hd => ?_⟩
  rw [memRead_execute_of_no_result (no_result_of_no_destination hd s _), readPast, if_pos rfl]

end Sys2Proof.Machine
end

section
/-! Reset (10_state.md R39; 70_reset_and_hazards.md R280 to R282): the pin between two instructions and in any phase, and the
first instruction after it. -/

namespace Sys2Proof.Machine

open Claims

/-- The status word after reset is that of level 5, with interrupts disabled (R39). -/
theorem level_zero_and_flagIe_zero : level 0 = 5 ∧ flagIe 0 = false := ⟨(levelIsHighestClearBit 0).1 rfl, rfl⟩

/-- Settles O3: the fields are those that the pin puts in, and a fetch that begins in P1 is from Y. -/
theorem resetPinKeepsMemory : Obligations.ResetPinKeepsMemory := by
  intro s
  obtain ⟨level_five, ie_off⟩ := level_zero_and_flagIe_zero
  have from_rom : fetchAddress (resetPin s) = 0x8000 := fetchAddress_of_p1 (resetPin_phase s)
  exact ⟨resetPin_sr s, resetPin_x s, resetPin_y s, resetPin_ir s, resetPin_phase s, resetPin_latch s, resetPin_mem s,
    level_five, ie_off, from_rom⟩

/-- Settles O4: the sequencer starts from the state that the pin leaves, whichever phase it was in. -/
theorem resetInAnyPhaseStartsAgain : Obligations.ResetInAnyPhaseStartsAgain := by
  intro m
  obtain ⟨hsr, hx, hy, hir, hphase, hlatch, hmem, hlevel, hie, -⟩ := resetPinKeepsMemory m.st
  have begins_in_p1 : (Sequencer.resetAt m).phase = .p1 := rfl
  exact ⟨begins_in_p1, rfl, rfl, hsr, hx, hy, hir, hphase, hlatch, hmem, hlevel, hie⟩

/-- After reset the current PC cell is cell 5 (R28, R39). -/
theorem pca_of_sr_zero {s : State} (h : s.sr = 0) : pca s = 5 := by
  obtain ⟨level_five, -⟩ := level_zero_and_flagIe_zero
  rw [pca, pcCell, h, level_five]
  rfl

/-- The machine after reset with its first instruction word fetched: Y held the address, phase 1 has loaded the word. -/
def fetchedAfterReset (m : Memory) (v : VLogicMode) : State := { State.resetWith m v with ir := m.read 0x8000 }

/-- A fetch that begins in P1 does not read the PC cell (R282, D1). -/
theorem fetch_resetWith (m : Memory) (v : VLogicMode) : fetch (State.resetWith m v) = fetchedAfterReset m v := by
  rw [fetch_eq, fetchAddress_of_p1 (resetWith_phase m v)]
  rfl

/-- The first step after reset runs the word at `$8000`. -/
theorem step_resetWith (m : Memory) (v : VLogicMode) :
    step (State.resetWith m v) = exec (decodeWord (m.read 0x8000)) (fetchedAfterReset m v) := by
  rw [step, fetch_resetWith]
  rfl

/-- Settles O2: the PC cell after an instruction (R125), for the first one after reset, whose cell is cell 5. -/
theorem firstInstructionComesFromRomBase : Obligations.FirstInstructionComesFromRomBase := by
  intro m v
  have cell_five : pca (fetchedAfterReset m v) = 5 := pca_of_sr_zero (resetWith_sr m v)
  obtain ⟨t, runs, cell⟩ := pcCellAfterInstruction (decodeWord (m.read 0x8000)) (fetchedAfterReset m v)
  rw [cell_five] at cell
  exact ⟨t, (step_resetWith m v).trans runs, runs, cell⟩

end Sys2Proof.Machine
end

section
/-! The skipped phase 0 (70_reset_and_hazards.md R293): phase 14 of a class S instruction that is not executed puts the new PC
into Y as well as into the cell, so that phase 0 has nothing left to do. -/

namespace Sys2Proof.Machine

open Claims

/-- The next instruction begins in P1 exactly after one of class S that is not executed (R213, R293). -/
theorem phaseAfter_eq_p1_iff (run : Bool) (f : Format) : phaseAfter run f = .p1 ↔ run = false ∧ isStore f = true := by
  unfold phaseAfter
  cases run <;> cases isStore f <;> simp

section
variable {i : Instr} {s : State} (hrun : executes i.format.guard s.sr = false)
include hrun

/-- Phases 13 and 14 of a class S instruction that is not executed leave Y at the address after the instruction. -/
theorem execute_y_of_skipped_store (hstore : isStore i.format = true) :
    (execute (aluOf i) i.format s).y = s.y + BitVec.ofNat 16 i.format.length := by
  obtain ⟨n, hd⟩ := Sequencer.destination_of_isStore hstore
  have stepped : (execute (aluOf i) i.format s).y = memRead (aluDone i s) (pca (aluDone i s)) + 1 := by
    simp only [execute, finish_y, writeResult, hd, hrun, aluDone]
    rfl
  rw [stepped, memoryPast_aluDone i s, readPast, pca_aluDone, if_pos rfl, resultWordAddress_succ _ _ hd]

/-- The PC cell of an instruction that is not executed holds that address too (R123). -/
theorem memRead_pca_of_not_run : memRead (execute (aluOf i) i.format s) (pca (execute (aluOf i) i.format s)) =
    s.y + BitVec.ofNat 16 i.format.length := by
  rw [pca_of_sr_eq s _ (execute_sr_of_not_run hrun), memRead_execute_of_no_result (no_result_of_not_run hrun _),
    readPast, if_pos rfl]

end

/-- Settles O42: where phase 0 is skipped, Y and the PC cell both hold the address after the instruction. -/
theorem skippedPhaseZeroIsInvisible : Obligations.SkippedPhaseZeroIsInvisible := by
  intro i s
  have skipped : (execute (aluOf i) i.format s).phase = .p1 ↔
      executes i.format.guard s.sr = false ∧ isStore i.format = true := by
    rw [execute_phase, phaseAfter_eq_p1_iff]
  refine ⟨_, exec_eq i s, fun hphase => ?_, skipped⟩
  obtain ⟨hrun, hstore⟩ := skipped.mp hphase
  calc fetchAddress (execute (aluOf i) i.format s)
      = (execute (aluOf i) i.format s).y := fetchAddress_of_p1 hphase
    _ = s.y + BitVec.ofNat 16 i.format.length := execute_y_of_skipped_store hrun hstore
    _ = memRead (execute (aluOf i) i.format s) (pca (execute (aluOf i) i.format s)) :=
        (memRead_pca_of_not_run hrun).symm

end Sys2Proof.Machine
end

section
/-! The number of phases of an instruction (70_reset_and_hazards.md R292, R293): the phases from phase 3 on are the path of the
instruction in the transition table, and the formula counts that path part by part. -/

namespace Sys2Proof.Machine.Sequencer

/-! ### The phases of a run are those of its path -/

theorem microStep_phases (m : Micro) : (microStep m).phases = m.phases + 1 := rfl

/-- A run along a path counts its phases. -/
theorem phases_runPhases {b : Word} {cc : Bool} {p : Phase} {ps : List Phase} (path : PhasePath b cc p ps)
    (hp : afterPhaseTwo p = true) {k : Nat} (hk : ps.length ≤ k) {m : Micro} (hm : m.phase = p) (hb : m.st.ir = b)
    (hcc : m.cc = cc) : (runPhases k m).phases = m.phases + ps.length := by
  induction path generalizing k m with
  | last h =>
    subst hm hb hcc
    obtain ⟨k, rfl⟩ : ∃ j, k = j + 1 := ⟨k - 1, by simp at hk; omega⟩
    rw [runPhases_last _ _ (by rwa [microStep_ir hp, microStep_cc hp])]
    exact microStep_phases m
  | next h path ih =>
    subst hm hb hcc
    obtain ⟨k, rfl⟩ : ∃ j, k = j + 1 := ⟨k - 1, by simp at hk; omega⟩
    have rest := ih (afterPhaseTwo_nextPhase hp h) (by simpa using hk) (microStep_phase hp) (microStep_ir hp)
      (microStep_cc hp)
    rw [runPhases_succ _ _ (by rwa [microStep_ir hp, microStep_cc hp]), rest, microStep_phases, List.length_cons]
    omega

/-- The phases of an instruction: those that begin it, and those of its path. -/
theorem runInstruction_phases (s : State) : (runInstruction s).phases =
    (begunMicro s).phases + (instructionPath (fetchedCc s) (decodeFormat (fetch s).ir)).length := by
  have enough : (instructionPath (fetchedCc s) (decodeFormat (fetch s).ir)).length ≤ 18 - (begunMicro s).phases := by
    have path := length_instructionPath (fetchedCc s) (decodeFormat (fetch s).ir)
    have begun := phases_begunMicro_le s
    omega
  rw [runInstruction_eq]
  exact phases_runPhases (phasePath_instructionPath (fetch s).ir (fetchedCc s)) (afterPhaseTwo_begunMicro s) enough
    rfl rfl rfl

/-! ### The formula counts the path -/

theorem length_xPath (f : Format) : (xPath f).length = xPhases f := by
  unfold xPath xPhases hasX addressedX
  cases f.x.mode <;> rfl

theorem length_reloadPath_add_yPath (f : Format) : (reloadPath f).length + (yPath f).length = yPhases f := by
  unfold reloadPath yPath yPhases hasX hasY addressedY
  by_cases hx : f.x.mode = .absent <;> by_cases hz : f.z.mode = .same <;> cases f.y <;> simp [hx, hz]

theorem length_zPath (run : Bool) (f : Format) : (zPath run f).length = zPhases run f := by
  unfold zPath zPhases isStore
  cases hd : destination f with
  | none | pc => rfl
  | store n =>
    have few := destination_store_le hd
    cases run with
    | false => rfl
    | true => match n, few with | 0, _ | 1, _ | 2, _ => rfl

theorem length_instructionPath_eq (run : Bool) (f : Format) :
    (instructionPath run f).length = xPhases f + yPhases f + 1 + zPhases run f := by
  rw [← length_xPath, ← length_reloadPath_add_yPath, ← length_zPath]
  simp only [instructionPath, List.length_append, List.length_cons]
  omega

/-- The phases of a whole instruction by the formula: phase 0 if it is not skipped, phases 1 and 2, and the path. -/
theorem phaseCount_eq (p : StartPhase) (run : Bool) (f : Format) :
    phaseCount p run f = (if p = .p0 then 3 else 2) + (instructionPath run f).length := by
  rw [length_instructionPath_eq]
  cases p with
  | p0 => simp only [phaseCount, if_true]; omega
  | p1 => simp only [phaseCount, reduceCtorEq, if_false]; omega

/-- Settles O47. -/
theorem phaseCountIsSequencers : Obligations.PhaseCountIsSequencers := by
  intro s
  rw [runInstruction_phases, nextInstr_format, phaseCount_eq]
  rfl

/-- Settles O48: phases 1, 2 and 12 are always there; before the path there are at most three phases, on it at most
fifteen. -/
theorem phaseCountBounds : Obligations.PhaseCountBounds := by
  intro p run f
  have at_most := length_instructionPath run f
  have at_least := length_instructionPath_eq run f
  rw [phaseCount_eq]
  split <;> omega

end Sys2Proof.Machine.Sequencer
end
